-- ==== Sys2Proof/Word.lean ====
section
/-! DEFINITION. The one word type of the hardware: every space of the block is byte-wide (20_memory.md R30, R33). -/

namespace Sys2Proof

/-- A byte: 8 bits, bit 7 the most significant (00_scope.md R5). -/
abbrev Byte := BitVec 8

end Sys2Proof
end

