-- ==== Sys2Proof/Syntax.lean ====
section
/-! DEFINITION. The instructions: one constructor of `Instr` per row of spec/opcode_table.json, with the names the rows'
conditions and operands are written in. -/

namespace Sys2Proof

/-- `phase`, the receive state register (10_state.md R11). Code 3 is unrepresentable, as R11 asks. -/
inductive Phase where
  | idle | hunt | data
deriving DecidableEq, Repr

/-- `mode` (10_state.md R12). -/
inductive Mode where
  | read | ack
deriving DecidableEq, Repr

/-- A track number, 1 to 3 (00_scope.md R4). -/
inductive TrackNo where
  | one | two | three
deriving DecidableEq, Repr

/-- The thirteen names of the ConstantsTable, a closed enumeration (30_encoding.md R45, 43_constants_table.md R132, R133). -/
inductive ConstName where
  | STX | ETX | CR
  | T1_START | T1_SEP | T1_END
  | T2_START | T2_SEP | T2_END
  | T3_START | T3_SEP | T3_END
  | OP_RAW_WRITE
deriving DecidableEq, Repr

/-- Where a payload byte stands for the track layer (30_encoding.md R55): inside the record of track `n`, or outside every
open record (at the cursor, or in the residue). -/
inductive TrackCtx where
  | outside
  | inside (n : TrackNo)
deriving DecidableEq, Repr

/-- The command a host presents while another runs (44_host_control.md R136): READ, or WRITE with the text on `wtext`. -/
inductive BusyCmd where
  | read
  | write (t : List Byte)
deriving DecidableEq, Repr

/-- One constructor per row of spec/opcode_table.json, in the table's order. A row that fixes the received byte has no
operand; a row that matches a class of bytes carries the byte. -/
inductive Instr where
  /-- RX_STX_HUNT, 40_frame_reader.md R72. -/
  | rxStxHunt
  /-- RX_DISCARD_HUNT, R73: any byte but 0x02. -/
  | rxDiscardHunt (b : Byte)
  /-- RX_CR_DATA, R74. -/
  | rxCrData
  /-- RX_ETX_DATA_READ, R75. -/
  | rxEtxDataRead
  /-- RX_ETX_DATA_ACK, R76. -/
  | rxEtxDataAck
  /-- RX_STORE_DATA, R77: any byte but 0x03 and 0x15. -/
  | rxStoreData (b : Byte)
  /-- RX_OVERFLOW_DATA, R78: any byte but 0x03 and 0x15. -/
  | rxOverflowData (b : Byte)
  /-- RX_IDLE, R71: the byte the transport offers and the block does not take. -/
  | rxIdle (b : Byte)
  /-- RX_FAULT, R82. -/
  | rxFault
  /-- STX, 30_encoding.md R45. -/
  | stx
  /-- ETX, R45. -/
  | etx
  /-- CR, R45. -/
  | cr
  /-- T1_START, 41_track_decoder.md R91. -/
  | t1Start
  /-- T1_SEP, R95. -/
  | t1Sep
  /-- T1_END, R92. -/
  | t1End
  /-- T2_START, R91. -/
  | t2Start
  /-- T2_SEP, R95. -/
  | t2Sep
  /-- T2_END, R92. -/
  | t2End
  /-- T3_START, R91. -/
  | t3Start
  /-- T3_SEP, R95. -/
  | t3Sep
  /-- T3_END, R92. -/
  | t3End
  /-- TRK_NONASCII, R96: a byte >= 0x80 inside the record of track `n`. -/
  | trkNonascii (n : TrackNo) (b : Byte)
  /-- TRK_FIELD_DATA, R95: any other payload byte, with where it stands. -/
  | trkFieldData (c : TrackCtx) (b : Byte)
  /-- OP_RAW_WRITE, 42_write_protocol.md R113. -/
  | opRawWrite
  /-- CMD_NONE, 30_encoding.md R59. -/
  | cmdNone
  /-- CMD_READ, 44_host_control.md R135. -/
  | cmdRead
  /-- CMD_WRITE, 42_write_protocol.md R110, with the operand `t` = `wtext[0:wlen]`. -/
  | cmdWrite (t : List Byte)
  /-- CMD_RESERVED, 30_encoding.md R59. -/
  | cmdReserved
  /-- CMD_WHILE_BUSY, 44_host_control.md R136. -/
  | cmdWhileBusy (c : BusyCmd)
  /-- CANCEL, 44_host_control.md R137. -/
  | cancel
  /-- CANCEL_IDLE, R138. -/
  | cancelIdle
  /-- RESET, 70_reset_and_hazards.md R175. -/
  | reset
deriving DecidableEq, Repr

end Sys2Proof
end

