-- ==== Sys2Proof/Config.lean ====
section
/-! DEFINITION. The implementation parameters of 00_scope.md R4, all of them. They are arguments of the model: `State.params`
holds them and no step changes them (notes/assumptions/1.md). -/

namespace Sys2Proof

/-- The host-visible fields of 10_state.md R21, which an integrator's register bus may give addresses. -/
inductive HostField where
  | cmd | cancel | wtext | wlen
  | phase | mode | outcome | len
  /-- `rd_index` and `rd_data`, the index port of `buf[i]`. -/
  | rdIndex | rdData
  | trkPresent (n : TrackNo)
  | trkLo (n : TrackNo)
  | trkHi (n : TrackNo)
  | trkNf (n : TrackNo)
  | explen
  | busy | done | ok | err
deriving DecidableEq, Repr

/-- `BUS_MAP` (00_scope.md R4, 20_memory.md R36): a bus address for each field that has one. R4 leaves its type OPEN; this form is
the model's (DESIGN CHOICE, notes/assumptions/24.md). -/
abbrev BusMap := List (HostField × Nat)

/-- The line format of the transport (00_scope.md R4): `BAUD`, data bits, parity, stop bits, each the number the transport's own
coding gives it. R4 leaves the type OPEN; this form is the model's (DESIGN CHOICE, notes/assumptions/24.md). -/
structure LineFormat where
  baud : Nat
  dataBits : Nat
  parity : Nat
  stopBits : Nat
deriving DecidableEq, Repr

/-- The parameters of 00_scope.md R4. `LW` is computed (`Params.lw`). No rule reads `busMap` or `lineFormat`
(92_eei_decisions.md, "Open parameters, collected"), and no meaning does. -/
structure Params where
  /-- `PAYLOAD_MAX`: the capacity of `buf`. -/
  payloadMax : Nat
  /-- `SKIP[1]`. -/
  skip1 : Nat
  /-- `SKIP[2]`. -/
  skip2 : Nat
  /-- `SKIP[3]`. -/
  skip3 : Nat
  /-- `WTEXT_MAX`: the largest write text before trimming. -/
  wtextMax : Nat
  /-- `BUS_MAP`; `none`: no register bus, R4's default. -/
  busMap : Option BusMap
  /-- The line format and `BAUD`; `none`: not given, R4's default. -/
  lineFormat : Option LineFormat
deriving DecidableEq, Repr

/-- The default column of 00_scope.md R4. -/
def Params.default : Params :=
  { payloadMax := 256, skip1 := 0, skip2 := 0, skip3 := 0, wtextMax := 256,
    busMap := none, lineFormat := none }

/-- The ranges of 00_scope.md R4: `PAYLOAD_MAX >= 1` and `1 <= WTEXT_MAX <= PAYLOAD_MAX`. -/
abbrev Params.wf (p : Params) : Prop :=
  1 ≤ p.payloadMax ∧ 1 ≤ p.wtextMax ∧ p.wtextMax ≤ p.payloadMax

/-- `LW = ceil(log2(PAYLOAD_MAX + 1))`, written as the number of binary digits of `PAYLOAD_MAX`, which is the same number for
every `PAYLOAD_MAX >= 1` (00_scope.md R4). -/
def Params.lw (p : Params) : Nat :=
  Nat.log2 p.payloadMax + 1

/-- The bus address of a host-visible field: none unless an integrator supplies `BUS_MAP` (10_state.md R21). -/
def Params.busAddress (p : Params) (f : HostField) : Option Nat :=
  p.busMap.bind (fun m => m.lookup f)

end Sys2Proof
end

