-- ==== Sys2Proof/Machine/Constants.lean ====
section
/-! DEFINITION. The ConstantsTable (30_encoding.md R45, 43_constants_table.md R130 to R133), the delimiters by track number,
and the numeric codes of `phase` and `mode` (10_state.md R11, R12). -/

namespace Sys2Proof.Machine

/-- `rawByte(k)`: the raw view of a constant (R131), with the values of R45. R63 (a) counts ten distinct values where R45's table
has eleven (02 03 15 25 5E 3F 3B 3D 2B 24 60), and 90_conflicts.md does not rule on it; the model follows the table of R45
(DESIGN CHOICE, notes/assumptions/23.md). -/
def rawByte : ConstName → Byte
  | .STX => 0x02#8
  | .ETX => 0x03#8
  | .CR => 0x15#8
  | .T1_START => 0x25#8
  | .T1_SEP => 0x5E#8
  | .T1_END => 0x3F#8
  | .T2_START => 0x3B#8
  | .T2_SEP => 0x3D#8
  | .T2_END => 0x3F#8
  | .T3_START => 0x2B#8
  | .T3_SEP => 0x24#8
  | .T3_END => 0x3F#8
  | .OP_RAW_WRITE => 0x60#8

/-- `encodedByte(k)`: the one-element sequence of the constant, ready for `Tx` (R131). -/
def encodedByte (k : ConstName) : List Byte :=
  [rawByte k]

/-- `START[n]` (R45). -/
def startByte : TrackNo → Byte
  | .one => rawByte .T1_START
  | .two => rawByte .T2_START
  | .three => rawByte .T3_START

/-- `SEP[n]` (R45). -/
def sepByte : TrackNo → Byte
  | .one => rawByte .T1_SEP
  | .two => rawByte .T2_SEP
  | .three => rawByte .T3_SEP

/-- `END[n]` (R45). -/
def endByte : TrackNo → Byte
  | .one => rawByte .T1_END
  | .two => rawByte .T2_END
  | .three => rawByte .T3_END

/-- A byte is ASCII when it is below 0x80, that is bit 7 is 0 (41_track_decoder.md R96). -/
def isAscii (b : Byte) : Bool :=
  b.toNat < 0x80

/-- The number of a track, 1 to 3 (00_scope.md R5). -/
def trackNumber : TrackNo → Nat
  | .one => 1
  | .two => 2
  | .three => 3

/-- The code of a phase (10_state.md R11). -/
def phaseCode : Phase → Nat
  | .idle => 0
  | .hunt => 1
  | .data => 2

/-- The code of a mode (10_state.md R12). -/
def modeCode : Mode → Nat
  | .read => 0
  | .ack => 1

end Sys2Proof.Machine
end

