-- ==== Sys2Proof/WellFormed.lean ====
section
/-! DEFINITION. Which terms of `Instr` are rows of the table: the `excludes` and mask columns of spec/opcode_table.json. -/

namespace Sys2Proof

/-- Is the byte one of the three start bytes (30_encoding.md R45, R63 (c))? -/
def isStartByte (b : Byte) : Bool :=
  b == Machine.startByte .one || b == Machine.startByte .two || b == Machine.startByte .three

/-- The side conditions a row's operand must meet. Every other row has none. -/
def Instr.wellFormed : Instr → Bool
  | .rxDiscardHunt b => b != Machine.rawByte .STX
  | .rxStoreData b => b != Machine.rawByte .ETX && b != Machine.rawByte .CR
  | .rxOverflowData b => b != Machine.rawByte .ETX && b != Machine.rawByte .CR
  | .trkNonascii _ b => !Machine.isAscii b
  | .trkFieldData .outside b => !isStartByte b
  | .trkFieldData (.inside n) b =>
    Machine.isAscii b && b != Machine.sepByte n && b != Machine.endByte n
  | .rxStxHunt => true
  | .rxCrData => true
  | .rxEtxDataRead => true
  | .rxEtxDataAck => true
  | .rxIdle _ => true
  | .rxFault => true
  | .stx => true
  | .etx => true
  | .cr => true
  | .t1Start => true
  | .t1Sep => true
  | .t1End => true
  | .t2Start => true
  | .t2Sep => true
  | .t2End => true
  | .t3Start => true
  | .t3Sep => true
  | .t3End => true
  | .opRawWrite => true
  | .cmdNone => true
  | .cmdRead => true
  | .cmdWrite _ => true
  | .cmdReserved => true
  | .cmdWhileBusy _ => true
  | .cancel => true
  | .cancelIdle => true
  | .reset => true

end Sys2Proof
end

