-- ==== Sys2Proof/Decode.lean ====
section
/-! DEFINITION. Decoding and encoding of an event word.

What a received value means is fixed by the port it stands on and by `phase`, `mode` and buffer-full (30_encoding.md R54, R55,
R59); spec/opcode_table.json gives the value (`match`) and names the rest (`format`, `phase`, `mode`, `cond`). An event word
is the table's value in byte 0, a selector in byte 1 (port in bits 7..4, context in bits 3..0), then the operand bytes of
CMD_WRITE. The selector's numbers are the model's (notes/assumptions/5.md). Port 0 is a bare table value, which names no port
(notes/assumptions/6.md). -/

namespace Sys2Proof

/-- Why a word is no instruction. Raised by `decode` only; safe: the word is rejected, nothing happens. -/
inductive DecodeError where
  /-- The word has no byte. -/
  | emptyWord
  /-- The word has a value and no selector. -/
  | noSelector
  /-- The selector names no port of the table's `format` column. -/
  | unknownPort
  /-- The port has no such context (`phase` code 3 among them, 10_state.md R11). -/
  | badContext
  /-- No row of that port matches the value. -/
  | noRow
  /-- Bytes follow a row that has no operand. -/
  | trailingBytes
deriving DecidableEq, Repr

/-- The ports an event can stand on: the `format` column of spec/opcode_table.json, with the two host signals apart. -/
inductive Port where
  | bare | rxByte | rxFault | constant | trackByte | txCommand | hostCmd | cancel | rst
deriving DecidableEq, Repr

/-- Bits 7..4 of the selector. -/
def portCode : Port → Nat
  | .bare => 0
  | .rxByte => 1
  | .rxFault => 2
  | .constant => 3
  | .trackByte => 4
  | .txCommand => 5
  | .hostCmd => 6
  | .cancel => 7
  | .rst => 8

/-- The port a code names. -/
def portOfCode : Nat → Option Port
  | 0 => some .bare
  | 1 => some .rxByte
  | 2 => some .rxFault
  | 3 => some .constant
  | 4 => some .trackByte
  | 5 => some .txCommand
  | 6 => some .hostCmd
  | 7 => some .cancel
  | 8 => some .rst
  | _ => none

/-- The selector byte of a port and a context. -/
def selector (p : Port) (ctx : Nat) : Byte :=
  BitVec.ofNat 8 (16 * portCode p + ctx)

/-- The context of a received byte: `phase` in bits 1..0, `mode` in bit 2, buffer full in bit 3 (R54, 40_frame_reader.md R72
to R78). -/
def rxContext (ph : Phase) (m : Mode) (full : Bool) : Nat :=
  Machine.phaseCode ph + 4 * Machine.modeCode m + (if full then 8 else 0)

/-- The context of a payload byte: 0 outside every open record, else the number of the track (R55). -/
def trackContext : TrackCtx → Nat
  | .outside => 0
  | .inside n => Machine.trackNumber n

/-- The rows of format `rx_byte`: the class of the byte and `phase` select the rule, ETX looks at `mode`, a byte to be stored
at the fullness of the buffer (R54; 60_exceptions.md R158 for the order of the tests). -/
def decodeRx (ctx : Nat) (v : Byte) : Except DecodeError Instr :=
  match ctx % 4 with
  | 0 => .ok (.rxIdle v)
  | 1 => if v = Machine.rawByte .STX then .ok .rxStxHunt else .ok (.rxDiscardHunt v)
  | 2 =>
    if v = Machine.rawByte .ETX then
      (if ctx / 4 % 2 = 0 then .ok .rxEtxDataRead else .ok .rxEtxDataAck)
    else if v = Machine.rawByte .CR then .ok .rxCrData
    else if ctx / 8 % 2 = 0 then .ok (.rxStoreData v)
    else .ok (.rxOverflowData v)
  | _ => .error .badContext

/-- The rows of format `constant` (R45). -/
def decodeConstant (v : Byte) : Except DecodeError Instr :=
  if v = Machine.rawByte .STX then .ok .stx
  else if v = Machine.rawByte .ETX then .ok .etx
  else if v = Machine.rawByte .CR then .ok .cr
  else .error .noRow

/-- The row of the start byte of a track. -/
def startRow : TrackNo → Instr
  | .one => .t1Start
  | .two => .t2Start
  | .three => .t3Start

/-- The row of the separator of a track. -/
def sepRow : TrackNo → Instr
  | .one => .t1Sep
  | .two => .t2Sep
  | .three => .t3Sep

/-- The row of the end byte of a track. -/
def endRow : TrackNo → Instr
  | .one => .t1End
  | .two => .t2End
  | .three => .t3End

/-- The class of a payload byte at the track layer (R55), as a row of format `track_byte`. -/
def trackRow (c : TrackCtx) (v : Byte) : Instr :=
  match c with
  | .outside =>
    if v = Machine.startByte .one then .t1Start
    else if v = Machine.startByte .two then .t2Start
    else if v = Machine.startByte .three then .t3Start
    else .trkFieldData .outside v
  | .inside n =>
    if v = Machine.endByte n then endRow n
    else if v = Machine.sepByte n then sepRow n
    else if Machine.isAscii v then .trkFieldData (.inside n) v
    else .trkNonascii n v

/-- The rows of format `track_byte`. -/
def decodeTrack (ctx : Nat) (v : Byte) : Except DecodeError Instr :=
  match ctx with
  | 0 => .ok (trackRow .outside v)
  | 1 => .ok (trackRow (.inside .one) v)
  | 2 => .ok (trackRow (.inside .two) v)
  | 3 => .ok (trackRow (.inside .three) v)
  | _ => .error .badContext

/-- The rows of format `host_cmd` (R59, 44_host_control.md R135, R136): `cmd` in the value, `phase` in the context, the write
text in the operand bytes. -/
def decodeHostCmd (ctx : Nat) (v : Byte) (ops : List Byte) : Except DecodeError Instr :=
  match v.toNat, ctx with
  | 2, 0 => .ok (.cmdWrite ops)
  | 2, 1 => .ok (.cmdWhileBusy (.write ops))
  | 2, 2 => .ok (.cmdWhileBusy (.write ops))
  | c, x =>
    if ops ≠ [] then .error .trailingBytes
    else match c, x with
    | 0, _ => .ok .cmdNone
    | 1, 0 => .ok .cmdRead
    | 1, 1 => .ok (.cmdWhileBusy .read)
    | 1, 2 => .ok (.cmdWhileBusy .read)
    | 3, _ => .ok .cmdReserved
    | 1, _ => .error .badContext
    | 2, _ => .error .badContext
    | _, _ => .error .noRow

/-- The rows of the input `cancel` (R137, R138). -/
def decodeCancel (ctx : Nat) (v : Byte) : Except DecodeError Instr :=
  if v ≠ 1#8 then .error .noRow
  else match ctx with
  | 0 => .ok .cancelIdle
  | 1 => .ok .cancel
  | 2 => .ok .cancel
  | _ => .error .badContext

/-- The rows that fix a whole value, in the table's order, for a value that comes with no port. -/
def bareRows : List (Nat × Instr) :=
  [(0x02, .rxStxHunt), (0x15, .rxCrData), (0x03, .rxEtxDataRead), (0x01, .rxFault),
   (0x25, .t1Start), (0x5E, .t1Sep), (0x3F, .t1End), (0x3B, .t2Start), (0x3D, .t2Sep),
   (0x2B, .t3Start), (0x24, .t3Sep), (0x60, .opRawWrite), (0x00, .cmdNone)]

/-- A bare table value: the first row that fixes it, else TRK_NONASCII for a value with bit 7 set, else the first default row.
CR is the one row the table gives a field above bit 7, so a value 0x15 that came with more than one byte of table bits is
that row (notes/assumptions/6.md). -/
def decodeBare (v : Byte) (ops : List Byte) : Except DecodeError Instr :=
  if v = Machine.rawByte .CR ∧ ops ≠ [] then .ok .cr
  else match bareRows.lookup v.toNat with
  | some i => .ok i
  | none => if Machine.isAscii v then .ok (.rxDiscardHunt v) else .ok (.trkNonascii .one v)

/-- A row that has no operand is the whole word. -/
def noOperands (ops : List Byte) (r : Except DecodeError Instr) : Except DecodeError Instr :=
  if ops = [] then r else .error .trailingBytes

/-- Decode an event word. Total on any bytes; a word that is no row is rejected by name. -/
def decode : List Byte → Except DecodeError Instr
  | [] => .error .emptyWord
  | [_] => .error .noSelector
  | v :: sel :: ops =>
    let ctx := sel.toNat % 16
    match portOfCode (sel.toNat / 16) with
    | none => .error .unknownPort
    | some .bare => decodeBare v ops
    | some .rxByte => noOperands ops (decodeRx ctx v)
    | some .rxFault => noOperands ops (if v = 1#8 ∧ ctx = 0 then .ok .rxFault else .error .noRow)
    | some .constant => noOperands ops (if ctx = 0 then decodeConstant v else .error .badContext)
    | some .trackByte => noOperands ops (decodeTrack ctx v)
    | some .txCommand =>
      noOperands ops (if v = Machine.rawByte .OP_RAW_WRITE ∧ ctx = 0 then .ok .opRawWrite else .error .noRow)
    | some .hostCmd => decodeHostCmd ctx v ops
    | some .cancel => noOperands ops (decodeCancel ctx v)
    | some .rst => noOperands ops (if v = 1#8 ∧ ctx = 0 then .ok .reset else .error .noRow)

/-- A received byte as a word. -/
def rxWord (ph : Phase) (m : Mode) (full : Bool) (b : Byte) : List Byte :=
  [b, selector .rxByte (rxContext ph m full)]

/-- A payload byte as a word. -/
def trackWord (c : TrackCtx) (b : Byte) : List Byte :=
  [b, selector .trackByte (trackContext c)]

/-- The words of an instruction: the table's value, the row's port and conditions, and the operand. -/
def encode : Instr → List Byte
  | .rxStxHunt => rxWord .hunt .read false 0x02#8
  | .rxDiscardHunt b => rxWord .hunt .read false b
  | .rxCrData => rxWord .data .read false 0x15#8
  | .rxEtxDataRead => rxWord .data .read false 0x03#8
  | .rxEtxDataAck => rxWord .data .ack false 0x03#8
  | .rxStoreData b => rxWord .data .read false b
  | .rxOverflowData b => rxWord .data .read true b
  | .rxIdle b => rxWord .idle .read false b
  | .rxFault => [0x01#8, selector .rxFault 0]
  | .stx => [0x02#8, selector .constant 0]
  | .etx => [0x03#8, selector .constant 0]
  | .cr => [0x15#8, selector .constant 0]
  | .t1Start => trackWord .outside 0x25#8
  | .t1Sep => trackWord (.inside .one) 0x5E#8
  | .t1End => trackWord (.inside .one) 0x3F#8
  | .t2Start => trackWord .outside 0x3B#8
  | .t2Sep => trackWord (.inside .two) 0x3D#8
  | .t2End => trackWord (.inside .two) 0x3F#8
  | .t3Start => trackWord .outside 0x2B#8
  | .t3Sep => trackWord (.inside .three) 0x24#8
  | .t3End => trackWord (.inside .three) 0x3F#8
  | .trkNonascii n b => trackWord (.inside n) b
  | .trkFieldData c b => trackWord c b
  | .opRawWrite => [0x60#8, selector .txCommand 0]
  | .cmdNone => [0x00#8, selector .hostCmd 0]
  | .cmdRead => [0x01#8, selector .hostCmd 0]
  | .cmdWrite t => 0x02#8 :: selector .hostCmd 0 :: t
  | .cmdReserved => [0x03#8, selector .hostCmd 0]
  | .cmdWhileBusy .read => [0x01#8, selector .hostCmd 1]
  | .cmdWhileBusy (.write t) => 0x02#8 :: selector .hostCmd 1 :: t
  | .cancel => [0x01#8, selector .cancel 1]
  | .cancelIdle => [0x01#8, selector .cancel 0]
  | .reset => [0x01#8, selector .rst 0]

/-- Byte `k` of a number whose bit 0 is the least significant bit of the first byte. -/
def byteAt (w k : Nat) : Byte :=
  BitVec.ofNat 8 (w / 2 ^ (8 * k))

/-- The bytes of a table word: as many as the table gives bits, in whole bytes, then one zero byte where that leaves no
selector (the bits above the table's are 0). -/
def wordBytes (nbits w : Nat) : List Byte :=
  let n := max 2 ((nbits + 7) / 8)
  (List.range n).map (byteAt (w % 2 ^ nbits))

/-- The instruction the decoder reads from a word of spec/opcode_table.json. -/
def decodeTableWord (nbits w : Nat) : Option Instr :=
  match decode (wordBytes nbits w) with
  | .ok i => some i
  | .error _ => none

end Sys2Proof
end

