-- ==== Sys2Proof/Machine/State.lean ====
section
/-! DEFINITION. The state of MSFRX (10_state.md), what a step can stop with, and the state after reset (R23). -/

namespace Sys2Proof.Machine

/-- `outcome`, the typed result of the last command (10_state.md R15). Codes 9 to 15 are unrepresentable. -/
inductive ResultCode where
  | none | frame | decodeFault | transportFault | stopped | overflow | ackOk | writeFailed | noData
deriving DecidableEq, Repr

/-- The second argument of `finish` (60_exceptions.md R152). -/
inductive Keep where
  | keep | discard
deriving DecidableEq, Repr

/-- A TrackRecord as a descriptor into `buf` (10_state.md R16). -/
structure TrackRec where
  present : Bool
  lo : Nat
  hi : Nat
  nf : Nat
deriving DecidableEq, Repr

/-- An absent track: `(0, 0, 0, 0)` (R16). -/
def TrackRec.absent : TrackRec :=
  { present := false, lo := 0, hi := 0, nf := 0 }

/-- A byte array (20_memory.md R30): index and byte pairs, indexes strictly rising. An index that is not listed has no value:
nothing has written it (notes/assumptions/2.md). -/
abbrev Memory := List Host.Cell

/-- What the track layer is doing with the next payload byte (10_state.md R19 (c)). -/
inductive ScanPos where
  /-- At the cursor: the next byte is tested against `START[n]` (R91). -/
  | cursor (n : TrackNo)
  /-- Inside the record of track `n` whose start byte is at `p`; `nf` fields so far; `bad`: the body holds a byte >= 0x80. -/
  | body (n : TrackNo) (p : Nat) (nf : Nat) (bad : Bool)
  /-- All three tracks are decided; what follows is residue (R103). -/
  | residue
  /-- A body held a byte >= 0x80: the decode has faulted (R100). -/
  | fault
deriving DecidableEq, Repr

/-- The transient registers of the track layer (10_state.md R19 (c), 41_track_decoder.md R103): the MODEL's own field, not
architectural state (notes/assumptions/9.md). -/
structure Scan where
  pos : ScanPos
  /-- Index of the next payload byte. -/
  idx : Nat
  trk1 : TrackRec
  trk2 : TrackRec
  trk3 : TrackRec
deriving DecidableEq, Repr

/-- The start of a decode: cursor 0, track 1, nothing found (R99). -/
def Scan.init : Scan :=
  { pos := .cursor .one, idx := 0, trk1 := .absent, trk2 := .absent, trk3 := .absent }

/-- The input pins of one clock cycle (92_eei_decisions.md D2, 10_state.md R21, 40_frame_reader.md R70). -/
structure Pins where
  rst : Bool
  cancel : Bool
  rxValid : Bool
  rxData : Byte
  rxFault : Bool
  cmd : BitVec 2
  /-- `wtext[0:wlen]`. -/
  wtext : List Byte
  rdIndex : Nat
deriving DecidableEq, Repr

/-- A cycle in which the environment presents nothing. -/
def Pins.quiet : Pins :=
  { rst := false, cancel := false, rxValid := false, rxData := 0#8, rxFault := false, cmd := 0#2, wtext := [], rdIndex := 0 }

/-- What the environment presents to one step: a clock cycle, or a line of a script already encoded as an event word
(30_encoding.md R61; notes/assumptions/7.md). -/
inductive Input where
  | cycle (p : Pins)
  | word (w : List Byte)
deriving DecidableEq, Repr

/-- The state. The fields from `phase` to `explen` are the eight elements of 10_state.md R10; `params`, `inputs`, `tx` and
`scan` are the model's own (INVENTORY.md). -/
structure State where
  /-- The parameters of 00_scope.md R4; no step changes them. -/
  params : Params
  /-- R11. -/
  phase : Phase
  /-- R12. -/
  mode : Mode
  /-- R13. -/
  buf : Memory
  /-- R14. -/
  len : Nat
  /-- R15. -/
  outcome : ResultCode
  /-- `trk[1]`, R16. -/
  trk1 : TrackRec
  /-- `trk[2]`, R16. -/
  trk2 : TrackRec
  /-- `trk[3]`, R16. -/
  trk3 : TrackRec
  /-- R17. -/
  exp : Memory
  /-- R17. -/
  explen : Nat
  /-- What the environment will present, next first. -/
  inputs : List Input
  /-- The `Tx(s)` actions performed, oldest first (00_scope.md R7, 42_write_protocol.md R114). -/
  tx : List (List Byte)
  /-- The track layer's transient registers. -/
  scan : Scan
deriving DecidableEq, Repr

/-- Why a step stops with a fault. The spec has no such stop: both are raised only where a byte that nothing has written
would be read, which 20_memory.md R35 says no rule does. -/
inductive Fault where
  /-- Raised by RX_ETX_DATA_READ and RX_ETX_DATA_ACK when a byte of `buf[0:len]` was never written. In no state that a run
  from reset reaches; safe (notes/assumptions/15.md). -/
  | bufUnwritten
  /-- Raised by RX_ETX_DATA_ACK and OP_RAW_WRITE when a byte of `exp[0:explen]` was never written. In no state that a run
  from reset reaches; safe (notes/assumptions/15.md). -/
  | expUnwritten
deriving DecidableEq, Repr

/-- Why a step is refused. -/
inductive Refusal where
  /-- An instruction with no meaning yet; raised by a refused arm of `exec` only. Safe. -/
  | notModelled (mnemonic : String)
  /-- `cmd` = 2 in IDLE with `wlen > WTEXT_MAX`, an illegal value of the port (10_state.md R21, 42_write_protocol.md R110) to
  which the spec gives no effect. Raised by CMD_WRITE, and by CMD_WHILE_BUSY met in IDLE. Safe (notes/assumptions/13.md). -/
  | writeTextTooLong
  /-- An encoded script word that is no row of the table. Raised by `step`, never for a clock cycle. Safe
  (notes/assumptions/5.md). -/
  | badWord (e : DecodeError)
deriving DecidableEq, Repr

/-- What a meaning answers. -/
abbrev Out := Host.Outcome State Fault Refusal

/-- The state right after reset (10_state.md R23), with the default parameters and nothing presented or sent yet. -/
def State.reset : State :=
  { params := Params.default
    phase := .idle
    mode := .read
    buf := []
    len := 0
    outcome := .none
    trk1 := .absent
    trk2 := .absent
    trk3 := .absent
    exp := []
    explen := 0
    inputs := []
    tx := []
    scan := Scan.init }

end Sys2Proof.Machine
end

