-- ==== Sys2Proof/Machine/Ops.lean ====
section
/-! DEFINITION. The named operations over memory and state that the meanings share: the byte arrays (20_memory.md), the store
`append` (R34), ending a command (`finish`, 60_exceptions.md R152) and starting one (44_host_control.md R135,
42_write_protocol.md R110). -/

namespace Sys2Proof.Machine

/-- The form a byte array is kept in: indexes strictly rising. -/
abbrev Memory.wf (m : Memory) : Prop :=
  m.Pairwise (fun c d => c.1 < d.1)

/-- Read one byte; an index nothing has written has no value (20_memory.md R35). -/
def Memory.read : Memory → Nat → Option Byte
  | [], _ => none
  | (i, v) :: m, a => if i = a then some v else Memory.read m a

/-- Write one byte. -/
def Memory.write : Memory → Nat → Byte → Memory
  | [], a, b => [(a, b)]
  | (i, v) :: m, a, b =>
    if a < i then (a, b) :: (i, v) :: m
    else if a = i then (a, b) :: m
    else (i, v) :: Memory.write m a b

/-- Write a byte sequence at rising indexes from `a`. -/
def Memory.writeAll (m : Memory) (a : Nat) : List Byte → Memory
  | [] => m
  | b :: bs => Memory.writeAll (Memory.write m a b) (a + 1) bs

/-- The bytes at indexes `a` to `a + n - 1`; none where one of them was never written. -/
def Memory.load (m : Memory) (a : Nat) : Nat → Option (List Byte)
  | 0 => some []
  | n + 1 =>
    match Memory.read m a, Memory.load m (a + 1) n with
    | some b, some bs => some (b :: bs)
    | _, _ => none

/-- `SKIP[n]` (00_scope.md R4). -/
def skipOf (p : Params) : TrackNo → Nat
  | .one => p.skip1
  | .two => p.skip2
  | .three => p.skip3

/-- `trk[n]` (10_state.md R16). -/
def trkOf (s : State) : TrackNo → TrackRec
  | .one => s.trk1
  | .two => s.trk2
  | .three => s.trk3

/-- `trk[1..3] <- absent`. -/
def clearTracks (s : State) : State :=
  { s with trk1 := .absent, trk2 := .absent, trk3 := .absent }

/-- `append(b)` (20_memory.md R34): the only store primitive of `buf`. -/
def append (b : Byte) (s : State) : State :=
  { s with buf := Memory.write s.buf s.len b, len := s.len + 1 }

/-- `finish(code, keep)` (60_exceptions.md R152): the single definition of what ending a command does, the block's whole trap
entry. Nothing is saved. -/
def finish (code : ResultCode) (k : Keep) (s : State) : State :=
  { s with
    outcome := code
    phase := .idle
    len := if k = .discard then 0 else s.len
    trk1 := if code = .frame then s.trk1 else .absent
    trk2 := if code = .frame then s.trk2 else .absent
    trk3 := if code = .frame then s.trk3 else .absent }

/-- What every command does first (44_host_control.md R135, 42_write_protocol.md R110). It is also all there is to leaving an
ended command behind: there is no return (60_exceptions.md R159). -/
def beginCommand (m : Mode) (s : State) : State :=
  { clearTracks s with outcome := .none, len := 0, mode := m }

/-- The `Reset` event (70_reset_and_hazards.md R175): every element takes its value of 10_state.md R23. The parameters, the
environment's inputs and the record of what was sent are not state of the block and stay. -/
def resetState (s : State) : State :=
  { State.reset with params := s.params, inputs := s.inputs, tx := s.tx }

end Sys2Proof.Machine
end

