-- ==== Sys2Proof/Machine/Operands.lean ====
section
/-! DEFINITION. The operand forms of the events: the payload `buf[0:len]`, the expected text `exp[0:explen]`, the trimmed write
text, the body and fields of a track, and the host's read port. -/

namespace Sys2Proof.Machine

/-- `buf[0:len]` (10_state.md R13); none where a byte of it was never written. -/
def payload (s : State) : Option (List Byte) :=
  Memory.load s.buf 0 s.len

/-- `exp[0:explen]` (10_state.md R17). -/
def expected (s : State) : Option (List Byte) :=
  Memory.load s.exp 0 s.explen

/-- `s[a:b]` (00_scope.md R5). -/
def slice (l : List Byte) (a b : Nat) : List Byte :=
  (l.drop a).take (b - a)

/-- The six ASCII whitespace bytes (42_write_protocol.md R111). -/
def isWhitespace (b : Byte) : Bool :=
  b == 0x09#8 || b == 0x0A#8 || b == 0x0B#8 || b == 0x0C#8 || b == 0x0D#8 || b == 0x20#8

/-- `trim(t)` (42_write_protocol.md R111). -/
def trim (t : List Byte) : List Byte :=
  ((t.dropWhile isWhitespace).reverse.dropWhile isWhitespace).reverse

/-- `split(s, c)` (41_track_decoder.md R95): k separators make k + 1 segments, empty ones kept. -/
def split : List Byte → Byte → List (List Byte)
  | [], _ => [[]]
  | b :: bs, c =>
    if b = c then [] :: split bs c
    else match split bs c with
      | f :: fs => (b :: f) :: fs
      | [] => [[b]]

/-- The fields of track `n`, as a host recovers them from the descriptor and `buf` (10_state.md R16, 30_encoding.md R56); none
for an absent track. -/
def trackFields (s : State) (n : TrackNo) : Option (List (List Byte)) :=
  let r := trkOf s n
  if r.present then
    (payload s).map (fun pl => split (slice pl r.lo r.hi) (sepByte n))
  else none

/-- The host's read port `rd_data` at `rd_index` (20_memory.md R35, R42): a value only in IDLE and only below `len`. -/
def hostRead (s : State) (i : Nat) : Option Byte :=
  if s.phase = .idle ∧ i < s.len then Memory.read s.buf i else none

/-- `rd_data` in a cycle whose pins put `rd_index` on the port (R42); a host read changes nothing. -/
def rdData (s : State) (p : Pins) : Option Byte :=
  hostRead s p.rdIndex

end Sys2Proof.Machine
end

