-- ==== Sys2Proof/Machine/Flags.lean ====
section
/-! DEFINITION. The flags and the host's view of the state (10_state.md R18, R21): functions of the state, none is storage. -/

namespace Sys2Proof.Machine

/-- `busy` (R18). -/
def busy (s : State) : Bool :=
  s.phase != .idle

/-- `done` (R18), which may serve as a level interrupt request (60_exceptions.md R154). -/
def done (s : State) : Bool :=
  s.phase == .idle && s.outcome != .none

/-- `ok` (R18). -/
def okFlag (s : State) : Bool :=
  s.outcome == .frame || s.outcome == .ackOk

/-- `err` (R18). -/
def errFlag (s : State) : Bool :=
  s.outcome == .decodeFault || s.outcome == .transportFault || s.outcome == .overflow ||
    s.outcome == .writeFailed || s.outcome == .noData

/-- The "track present" flag of track `n` (R18). -/
def trackPresent (s : State) (n : TrackNo) : Bool :=
  (trkOf s n).present

/-- `rx_ready` in a cycle with pins `p` (R18, 40_frame_reader.md R70, 60_exceptions.md R157). -/
def rxReady (s : State) (p : Pins) : Bool :=
  busy s && !p.cancel && !p.rst

/-- The byte taken from the transport in a cycle, if one is (R70): consumed by being taken. -/
def takenByte (s : State) (p : Pins) : Option Byte :=
  if rxReady s p && p.rxValid && !p.rxFault then some p.rxData else none

/-- What the transport has still to accept of a `Tx(s)` action after some cycles, given `tx_ready` in each: the bytes go in order,
one per accepted transfer (42_write_protocol.md R114). -/
def txRest : List Bool → List Byte → List Byte
  | [], bytes => bytes
  | ready :: rs, bytes => txRest rs (if ready then bytes.drop 1 else bytes)

/-- The bytes accepted in those cycles, in the order of their transfers (R114). -/
def txAccepted : List Bool → List Byte → List Byte
  | [], _ => []
  | ready :: rs, bytes =>
    if ready then bytes.take 1 ++ txAccepted rs (bytes.drop 1) else txAccepted rs bytes

/-- What is outstanding of the last `Tx` action when the step that performed it has ended: the transport has accepted as many
transfers as the action has bytes (R114: `Tx` always completes, inside its step; notes/assumptions/12.md). -/
def txOutstanding (s : State) : List Byte :=
  match s.tx.getLast? with
  | none => []
  | some bytes => txRest (List.replicate bytes.length true) bytes

/-- `tx_valid` (R114, 92_eei_decisions.md D2; 10_state.md R23 for its value after Reset): a byte is offered to the transport. -/
def txValid (s : State) : Bool :=
  !(txOutstanding s).isEmpty

/-- `tx_data` (R114): the byte offered, while `tx_valid` is 1. -/
def txData (s : State) : Option Byte :=
  (txOutstanding s).head?

/-- Is the buffer full (40_frame_reader.md R77, R78)? -/
def bufferFull (s : State) : Bool :=
  !(s.len < s.params.payloadMax)

/-- The 2-bit port `phase` (R11, R21). -/
def phasePort (s : State) : BitVec 2 :=
  BitVec.ofNat 2 (phaseCode s.phase)

/-- The 1-bit port `mode` (R12, R21). -/
def modePort (s : State) : BitVec 1 :=
  BitVec.ofNat 1 (modeCode s.mode)

/-- The code of an outcome (R15). -/
def outcomeCode : ResultCode → Nat
  | .none => 0
  | .frame => 1
  | .decodeFault => 2
  | .transportFault => 3
  | .stopped => 4
  | .overflow => 5
  | .ackOk => 6
  | .writeFailed => 7
  | .noData => 8

/-- The 4-bit port `outcome` (R15, R21). -/
def outcomePort (s : State) : BitVec 4 :=
  BitVec.ofNat 4 (outcomeCode s.outcome)

/-- An index presented on a port of `LW` bits (20_memory.md R31: unsigned, presented whole). -/
def indexPort (s : State) (v : Nat) : BitVec s.params.lw :=
  BitVec.ofNat s.params.lw v

end Sys2Proof.Machine
end

