-- ==== Sys2Proof/Machine/ConstantsTable.lean ====
section
/-! DEFINITION. The meanings of the rows of format `constant`. The table has "No behavior beyond lookup"
(43_constants_table.md): `rawByte` and `encodedByte` are the lookup (R131), no event changes the table (R130), and a read of
it has no side effect (20_memory.md R33). -/

namespace Sys2Proof.Machine

/-- STX (30_encoding.md R45): a lookup changes nothing. -/
def execStx (s : State) : Out := .next s

/-- ETX (R45). -/
def execEtx (s : State) : Out := .next s

/-- CR (R45). -/
def execCr (s : State) : Out := .next s

end Sys2Proof.Machine
end

