-- ==== Sys2Proof/Machine/TrackDecoder.lean ====
section
/-! DEFINITION. TrackDecoder (41_track_decoder.md): `extract` and `decodeTracks` clause by clause, and the meanings of the
table's track-layer rows, which take a payload one byte at a time. -/

namespace Sys2Proof.Machine

/-- The result of one `extract(p, n)`: each but `fault` with the cursor it leaves. -/
inductive Extracted where
  | absent (p : Nat)
  | present (lo hi nf p : Nat)
  | fault
deriving DecidableEq, Repr

/-- The least index of `c` in a byte sequence. -/
def firstIndex (c : Byte) : List Byte → Option Nat
  | [] => none
  | b :: bs => if b = c then some 0 else (firstIndex c bs).map (· + 1)

/-- The end-byte search of R92: the least `i >= p` with `pl[i] = END[n]`. -/
def findEnd (n : TrackNo) (pl : List Byte) (p : Nat) : Option Nat :=
  (firstIndex (endByte n) (pl.drop p)).map (· + p)

/-- `extract(p, n)` over the payload `pl`, with `skip` = `SKIP[n]`: R91, R92, R93, R94, R96, R95, R97 and R98, in the order
the clauses are tested. -/
def extract (skip : Nat) (n : TrackNo) (pl : List Byte) (p : Nat) : Extracted :=
  if pl[p]? ≠ some (startByte n) then .absent p
  else match findEnd n pl p with
    | none => .absent p
    | some e =>
      let lo := min (p + 1 + skip) e
      let body := slice pl lo e
      if body.any (fun b => !isAscii b) then .fault
      else .present lo e (1 + body.count (sepByte n)) (e + 1)

/-- The descriptor R101 stores for a result. -/
def Extracted.record : Extracted → TrackRec
  | .present lo hi nf _ => { present := true, lo := lo, hi := hi, nf := nf }
  | .absent _ => .absent
  | .fault => .absent

/-- The cursor a result leaves; `fault` leaves none, the decode ends (R100). -/
def Extracted.cursor : Extracted → Option Nat
  | .present _ _ _ p => some p
  | .absent p => some p
  | .fault => none

/-- `decode_tracks` (R99): three extractions in the order 1, 2, 3, the cursor threaded; a fault ends it with no track (R100);
the last cursor is dropped (R103). -/
def decodeTracks (q : Params) (pl : List Byte) : Option (TrackRec × TrackRec × TrackRec) :=
  let x1 := extract (skipOf q .one) .one pl 0
  match x1.cursor with
  | none => none
  | some p1 =>
    let x2 := extract (skipOf q .two) .two pl p1
    match x2.cursor with
    | none => none
    | some p2 =>
      let x3 := extract (skipOf q .three) .three pl p2
      match x3.cursor with
      | none => none
      | some _ => some (x1.record, x2.record, x3.record)

/-- `trk[1..3] <- r` (R101). -/
def storeTracks (r : TrackRec × TrackRec × TrackRec) (s : State) : State :=
  { s with trk1 := r.1, trk2 := r.2.1, trk3 := r.2.2 }

/-- The first track, from track `n` on, whose start byte is `b`: the tracks passed over are absent and leave the cursor (R91,
R99). -/
def startsFrom (n : TrackNo) (b : Byte) : Option TrackNo :=
  match n with
  | .one =>
    if b = startByte .one then some .one
    else if b = startByte .two then some .two
    else if b = startByte .three then some .three
    else none
  | .two => if b = startByte .two then some .two else if b = startByte .three then some .three else none
  | .three => if b = startByte .three then some .three else none

/-- Where the decode goes on after the record of track `n` (R97, R99). -/
def afterTrack : TrackNo → ScanPos
  | .one => .cursor .two
  | .two => .cursor .three
  | .three => .residue

/-- Close the record of track `n` that started at `p`, at the end byte with index `sc.idx` (R94, R97, R98), or fault when its
body holds a byte >= 0x80, and then deliver no track (R96, R100). -/
def Scan.close (q : Params) (n : TrackNo) (p nf : Nat) (bad : Bool) (sc : Scan) : Scan :=
  if bad then { sc with pos := .fault, idx := sc.idx + 1, trk1 := .absent, trk2 := .absent, trk3 := .absent }
  else
    let r : TrackRec := { present := true, lo := min (p + 1 + skipOf q n) sc.idx, hi := sc.idx, nf := nf }
    let sc' := { sc with pos := afterTrack n, idx := sc.idx + 1 }
    match n with
    | .one => { sc' with trk1 := r }
    | .two => { sc' with trk2 := r }
    | .three => { sc' with trk3 := r }

/-- What the decoder does with the next payload byte `b`: the classes of 30_encoding.md R55, one byte at a time. A skipped
position (R94) is neither counted nor checked; the end byte is looked for from the start byte on (R92). -/
def Scan.byte (q : Params) (b : Byte) (sc : Scan) : Scan :=
  match sc.pos with
  | .residue => { sc with idx := sc.idx + 1 }
  | .fault => { sc with idx := sc.idx + 1 }
  | .cursor n =>
    match startsFrom n b with
    | some k => { sc with pos := .body k sc.idx 1 false, idx := sc.idx + 1 }
    | none => { sc with pos := .residue, idx := sc.idx + 1 }
  | .body n p nf bad =>
    if b = endByte n then sc.close q n p nf bad
    else if sc.idx < p + 1 + skipOf q n then { sc with idx := sc.idx + 1 }
    else if b = sepByte n then { sc with pos := .body n p (nf + 1) bad, idx := sc.idx + 1 }
    else if isAscii b then { sc with idx := sc.idx + 1 }
    else { sc with pos := .body n p nf true, idx := sc.idx + 1 }

/-- What a scan that has met the end of the payload has decoded: a record still open has no end byte and is absent (R93, R105). -/
def Scan.result (sc : Scan) : Option (TrackRec × TrackRec × TrackRec) :=
  match sc.pos with
  | .fault => none
  | .cursor _ => some (sc.trk1, sc.trk2, sc.trk3)
  | .body _ _ _ _ => some (sc.trk1, sc.trk2, sc.trk3)
  | .residue => some (sc.trk1, sc.trk2, sc.trk3)

/-- Where the next payload byte stands (30_encoding.md R55). -/
def Scan.context (sc : Scan) : TrackCtx :=
  match sc.pos with
  | .body n _ _ _ => .inside n
  | .cursor _ => .outside
  | .residue => .outside
  | .fault => .outside

/-- The track layer meets the payload byte `b`. -/
def trackByte (b : Byte) (s : State) : State :=
  { s with scan := s.scan.byte s.params b }

/-- T1_START (R91). -/
def execT1Start (s : State) : Out := .next (trackByte (startByte .one) s)

/-- T1_SEP (R95). -/
def execT1Sep (s : State) : Out := .next (trackByte (sepByte .one) s)

/-- T1_END (R92 to R94, R96 to R98). -/
def execT1End (s : State) : Out := .next (trackByte (endByte .one) s)

/-- T2_START (R91). -/
def execT2Start (s : State) : Out := .next (trackByte (startByte .two) s)

/-- T2_SEP (R95). -/
def execT2Sep (s : State) : Out := .next (trackByte (sepByte .two) s)

/-- T2_END (R92 to R94, R96 to R98). -/
def execT2End (s : State) : Out := .next (trackByte (endByte .two) s)

/-- T3_START (R91). -/
def execT3Start (s : State) : Out := .next (trackByte (startByte .three) s)

/-- T3_SEP (R95). -/
def execT3Sep (s : State) : Out := .next (trackByte (sepByte .three) s)

/-- T3_END (R92 to R94, R96 to R98). -/
def execT3End (s : State) : Out := .next (trackByte (endByte .three) s)

/-- TRK_NONASCII (R96): the decode faults when the record that holds the byte closes, since a record without an end byte is
absent before its bytes are checked (60_exceptions.md R158). -/
def execTrkNonascii (b : Byte) (s : State) : Out := .next (trackByte b s)

/-- TRK_FIELD_DATA (R95, 30_encoding.md R56): the byte is field data as it is. -/
def execTrkFieldData (b : Byte) (s : State) : Out := .next (trackByte b s)

end Sys2Proof.Machine
end

