-- ==== Sys2Proof/Machine/WriteProtocol.lean ====
section
/-! DEFINITION. WriteProtocol (42_write_protocol.md): the write command, its transmission, and the acknowledgment test. -/

namespace Sys2Proof.Machine

/-- The bytes of a write transaction for the trimmed text `x` (R113, 30_encoding.md R53). -/
def writeFrames (x : List Byte) : List Byte :=
  encodedByte .STX ++ encodedByte .OP_RAW_WRITE ++ encodedByte .ETX ++ encodedByte .STX ++ x ++ encodedByte .ETX

/-- `Tx(s)`: one output action (R114, 20_memory.md R39). -/
def transmit (bytes : List Byte) (s : State) : State :=
  { s with tx := s.tx ++ [bytes] }

/-- `exp[0:|x|] <- x; explen <- |x|` (R113). -/
def storeExpected (x : List Byte) (s : State) : State :=
  { s with exp := Memory.writeAll s.exp 0 x, explen := x.length }

/-- The `CmdWrite(t)` event in IDLE (R110 to R115): clear, trim, the empty test before any transmission, then store, transmit
and enter reception. A text longer than WTEXT_MAX is no operand of the event (notes/assumptions/13.md). -/
def startWrite (t : List Byte) (s : State) : Out :=
  if s.params.wtextMax < t.length then .refused .writeTextTooLong
  else
    let s1 := beginCommand .ack s
    let x := trim t
    if x = [] then .next (finish .noData .discard { s1 with explen := 0 })
    else .next { transmit (writeFrames x) (storeExpected x s1) with phase := .hunt }

/-- `ack_matches()` (R116) on bytes that are all written: equal lengths and equal bytes. -/
def ackMatches (pl x : List Byte) : Bool :=
  pl.length == x.length && pl == x

/-- The ETX step of an acknowledgment (40_frame_reader.md R76): lengths first, so no byte is read when they differ. -/
def endAck (s : State) : Out :=
  if s.len ≠ s.explen then .next (finish .writeFailed .keep s)
  else match payload s, expected s with
    | none, _ => .fault .bufUnwritten
    | some _, none => .fault .expUnwritten
    | some pl, some x =>
      if ackMatches pl x then .next (finish .ackOk .keep s) else .next (finish .writeFailed .keep s)

/-- OP_RAW_WRITE (R113, R114): the transmission of the command frame and the data frame that carries `exp[0:explen]`, as one
action. With no text there is nothing to send (R112; notes/assumptions/11.md). -/
def execOpRawWrite (s : State) : Out :=
  match expected s with
  | none => .fault .expUnwritten
  | some x => if x = [] then .next s else .next (transmit (writeFrames x) s)

/-- CMD_WRITE (R110); in HUNT and DATA the command is ignored (44_host_control.md R136). -/
def execCmdWrite (t : List Byte) (s : State) : Out :=
  if s.phase = .idle then startWrite t s else .next s

end Sys2Proof.Machine
end

