-- ==== Sys2Proof/Machine/FrameReader.lean ====
section
/-! DEFINITION. FrameReader (40_frame_reader.md): the response to a received byte and to a failed read, and the meanings of the
rows of formats `rx_byte` and `rx_fault`. A row met outside its own phase or mode does what its byte does there
(notes/assumptions/8.md). -/

namespace Sys2Proof.Machine

/-- R72: an STX in HUNT opens a frame. -/
def openFrame (s : State) : State :=
  { s with len := 0, phase := .data }

/-- R75: the ETX of a read frame; the whole decode is part of this step (41_track_decoder.md R101) and leaves no cursor behind
(R103). -/
def endRead (s : State) : Out :=
  match payload s with
  | none => .fault .bufUnwritten
  | some pl =>
    let s := { s with scan := Scan.init }
    match decodeTracks s.params pl with
    | none => .next (finish .decodeFault .keep s)
    | some r => .next (finish .frame .keep (storeTracks r s))

/-- R78: a byte to be stored and no room: Overflow in READ mode, WriteFailed in ACK mode. -/
def overflow (s : State) : State :=
  match s.mode with
  | .read => finish .overflow .discard s
  | .ack => finish .writeFailed .discard s

/-- The event `RxByte(b)` in DATA, the tests in the order of 60_exceptions.md R158. -/
def rxByteData (b : Byte) (s : State) : Out :=
  if b = rawByte .ETX then
    match s.mode with
    | .read => endRead s
    | .ack => endAck s
  else if b = rawByte .CR then .next s
  else if bufferFull s then .next (overflow s)
  else .next (append b s)

/-- The event `RxByte(b)` in any state (R71 to R78). -/
def rxByte (b : Byte) (s : State) : Out :=
  match s.phase with
  | .idle => .next s
  | .hunt => if b = rawByte .STX then .next (openFrame s) else .next s
  | .data => rxByteData b s

/-- The event `RxFault` in any state (R71, R82). -/
def rxFaultEvent (s : State) : State :=
  match s.phase with
  | .idle => s
  | .hunt => finish .transportFault .discard s
  | .data => finish .transportFault .discard s

/-- RX_STX_HUNT (R72). -/
def execRxStxHunt (s : State) : Out :=
  if s.phase = .hunt then .next (openFrame s) else rxByte (rawByte .STX) s

/-- RX_DISCARD_HUNT (R73). -/
def execRxDiscardHunt (b : Byte) (s : State) : Out :=
  if s.phase = .hunt ∧ b ≠ rawByte .STX then .next s else rxByte b s

/-- RX_CR_DATA (R74). -/
def execRxCrData (s : State) : Out :=
  if s.phase = .data then .next s else rxByte (rawByte .CR) s

/-- RX_ETX_DATA_READ (R75). -/
def execRxEtxDataRead (s : State) : Out :=
  if s.phase = .data ∧ s.mode = .read then endRead s else rxByte (rawByte .ETX) s

/-- RX_ETX_DATA_ACK (R76). -/
def execRxEtxDataAck (s : State) : Out :=
  if s.phase = .data ∧ s.mode = .ack then endAck s else rxByte (rawByte .ETX) s

/-- RX_STORE_DATA (R77). -/
def execRxStoreData (b : Byte) (s : State) : Out :=
  if s.phase = .data ∧ b ≠ rawByte .ETX ∧ b ≠ rawByte .CR ∧ bufferFull s = false then .next (append b s)
  else rxByte b s

/-- RX_OVERFLOW_DATA (R78). -/
def execRxOverflowData (b : Byte) (s : State) : Out :=
  if s.phase = .data ∧ b ≠ rawByte .ETX ∧ b ≠ rawByte .CR ∧ bufferFull s = true then .next (overflow s)
  else rxByte b s

/-- RX_IDLE (R71): the block requests no byte, so none is taken. -/
def execRxIdle (b : Byte) (s : State) : Out :=
  if s.phase = .idle then .next s else rxByte b s

/-- RX_FAULT (R82; R71 in IDLE). -/
def execRxFault (s : State) : Out := .next (rxFaultEvent s)

end Sys2Proof.Machine
end

