-- ==== Sys2Proof/Machine/HostControl.lean ====
section
/-! DEFINITION. Host control (44_host_control.md) and reset (70_reset_and_hazards.md): the rows of formats `host_cmd` and
`host_signal`. -/

namespace Sys2Proof.Machine

/-- The `CmdRead` event in IDLE (R135). -/
def startRead (s : State) : State :=
  { beginCommand .read s with phase := .hunt }

/-- The `Cancel` event: STOPPED while a command runs (R137), no effect in IDLE (R138). -/
def cancelEvent (s : State) : State :=
  match s.phase with
  | .idle => s
  | .hunt => finish .stopped .discard s
  | .data => finish .stopped .discard s

/-- CMD_NONE (30_encoding.md R59). -/
def execCmdNone (s : State) : Out := .next s

/-- CMD_READ (R135); in HUNT and DATA the command is ignored (R136). -/
def execCmdRead (s : State) : Out :=
  if s.phase = .idle then .next (startRead s) else .next s

/-- CMD_RESERVED (30_encoding.md R59, R136: `cmd` = 3 is ignored in every phase). -/
def execCmdReserved (s : State) : Out := .next s

/-- CMD_WHILE_BUSY (R136): ignored, not queued, not remembered. Met in IDLE it is the command itself. -/
def execCmdWhileBusy (c : BusyCmd) (s : State) : Out :=
  if s.phase = .idle then
    match c with
    | .read => .next (startRead s)
    | .write t => startWrite t s
  else .next s

/-- CANCEL (R137). -/
def execCancel (s : State) : Out := .next (cancelEvent s)

/-- CANCEL_IDLE (R138). -/
def execCancelIdle (s : State) : Out :=
  if s.phase = .idle then .next s else .next (cancelEvent s)

/-- RESET (70_reset_and_hazards.md R175). -/
def execReset (s : State) : Out := .next (resetState s)

end Sys2Proof.Machine
end

