-- ==== Sys2Proof/Machine/Dispatch.lean ====
section
/-! DEFINITION. One arm per row of spec/opcode_table.json, each a direct call of the row's meaning. -/

namespace Sys2Proof.Machine

def exec (i : Instr) (s : State) : Host.Outcome State Fault Refusal :=
  match i with
  | .rxStxHunt => Sys2Proof.Machine.execRxStxHunt s
  | .rxDiscardHunt b => Sys2Proof.Machine.execRxDiscardHunt b s
  | .rxCrData => Sys2Proof.Machine.execRxCrData s
  | .rxEtxDataRead => Sys2Proof.Machine.execRxEtxDataRead s
  | .rxEtxDataAck => Sys2Proof.Machine.execRxEtxDataAck s
  | .rxStoreData b => Sys2Proof.Machine.execRxStoreData b s
  | .rxOverflowData b => Sys2Proof.Machine.execRxOverflowData b s
  | .rxIdle b => Sys2Proof.Machine.execRxIdle b s
  | .rxFault => Sys2Proof.Machine.execRxFault s
  | .stx => Sys2Proof.Machine.execStx s
  | .etx => Sys2Proof.Machine.execEtx s
  | .cr => Sys2Proof.Machine.execCr s
  | .t1Start => Sys2Proof.Machine.execT1Start s
  | .t1Sep => Sys2Proof.Machine.execT1Sep s
  | .t1End => Sys2Proof.Machine.execT1End s
  | .t2Start => Sys2Proof.Machine.execT2Start s
  | .t2Sep => Sys2Proof.Machine.execT2Sep s
  | .t2End => Sys2Proof.Machine.execT2End s
  | .t3Start => Sys2Proof.Machine.execT3Start s
  | .t3Sep => Sys2Proof.Machine.execT3Sep s
  | .t3End => Sys2Proof.Machine.execT3End s
  | .trkNonascii _ b => Sys2Proof.Machine.execTrkNonascii b s
  | .trkFieldData _ b => Sys2Proof.Machine.execTrkFieldData b s
  | .opRawWrite => Sys2Proof.Machine.execOpRawWrite s
  | .cmdNone => Sys2Proof.Machine.execCmdNone s
  | .cmdRead => Sys2Proof.Machine.execCmdRead s
  | .cmdWrite t => Sys2Proof.Machine.execCmdWrite t s
  | .cmdReserved => Sys2Proof.Machine.execCmdReserved s
  | .cmdWhileBusy c => Sys2Proof.Machine.execCmdWhileBusy c s
  | .cancel => Sys2Proof.Machine.execCancel s
  | .cancelIdle => Sys2Proof.Machine.execCancelIdle s
  | .reset => Sys2Proof.Machine.execReset s

end Sys2Proof.Machine
end

