-- ==== Sys2Proof/Machine/Fetch.lean ====
section
/-! DEFINITION. What a clock cycle stands for: the events of 00_scope.md R7, their priority (60_exceptions.md R157), the block's
response to each, and the event word a cycle's pins make together with `phase`, `mode` and buffer-full. -/

namespace Sys2Proof.Machine

/-- The events of 00_scope.md R7. -/
inductive Event where
  | reset
  | cancel
  | cmdRead
  | cmdWrite (t : List Byte)
  | rxByte (b : Byte)
  | rxFault
deriving DecidableEq, Repr

/-- R157: the at most one event a cycle resolves into, highest priority first. Losers are not remembered. -/
def arbitrate (s : State) (p : Pins) : Option Event :=
  if p.rst then some .reset
  else if p.cancel then some .cancel
  else if busy s && p.rxFault then some .rxFault
  else if busy s && p.rxValid then some (.rxByte p.rxData)
  else if !busy s && p.cmd == 1#2 then some .cmdRead
  else if !busy s && p.cmd == 2#2 then some (.cmdWrite p.wtext)
  else none

/-- The block's response to an event, total over state and event (00_scope.md R7). -/
def respond (e : Event) (s : State) : Out :=
  match e with
  | .reset => .next (resetState s)
  | .cancel => .next (cancelEvent s)
  | .cmdRead => if s.phase = .idle then .next (startRead s) else .next s
  | .cmdWrite t => if s.phase = .idle then startWrite t s else .next s
  | .rxByte b => rxByte b s
  | .rxFault => .next (rxFaultEvent s)

/-- The value on `cmd[1:0]` as a byte. -/
def cmdByte (p : Pins) : Byte :=
  BitVec.ofNat 8 p.cmd.toNat

/-- The word of a cycle with no event (notes/assumptions/17.md): a command that is ignored while busy, the reserved command,
a byte or a failed read offered in IDLE, or nothing. -/
def quietWord (s : State) (p : Pins) : List Byte :=
  if p.cmd = 3#2 then [cmdByte p, selector .hostCmd (phaseCode s.phase)]
  else if p.cmd = 2#2 then cmdByte p :: selector .hostCmd (phaseCode s.phase) :: p.wtext
  else if p.cmd = 1#2 then [cmdByte p, selector .hostCmd (phaseCode s.phase)]
  else if p.rxValid || p.rxFault then rxWord s.phase s.mode (bufferFull s) p.rxData
  else [cmdByte p, selector .hostCmd (phaseCode s.phase)]

/-- The event word of a clock cycle: the value on the port of the event that wins, the port, and the block's own condition. -/
def cycleWord (s : State) (p : Pins) : List Byte :=
  match arbitrate s p with
  | some .reset => [0x01#8, selector .rst 0]
  | some .cancel => [0x01#8, selector .cancel (phaseCode s.phase)]
  | some .rxFault => [0x01#8, selector .rxFault 0]
  | some (.rxByte b) => rxWord s.phase s.mode (bufferFull s) b
  | some .cmdRead => [0x01#8, selector .hostCmd (phaseCode s.phase)]
  | some (.cmdWrite t) => 0x02#8 :: selector .hostCmd (phaseCode s.phase) :: t
  | none => quietWord s p

/-- The event word the next input stands for. -/
def fetchWord (s : State) : Input → List Byte
  | .cycle p => cycleWord s p
  | .word w => w

end Sys2Proof.Machine
end

