-- ==== Sys2Proof/Machine/Step.lean ====
section
/-! DEFINITION. One step: take what the environment presents next, make its event word, decode it, run the row. -/

namespace Sys2Proof.Machine

/-- One step. With nothing presented there is no event and the state stays (60_exceptions.md R163, 92_eei_decisions.md D2). -/
def step (s : State) : Host.Outcome State Fault Refusal :=
  match s.inputs with
  | [] => .next s
  | inp :: rest =>
    match decode (fetchWord s inp) with
    | .ok i => exec i { s with inputs := rest }
    | .error e => .refused (.badWord e)

/-- `s` with a word of spec/opcode_table.json presented as the next input (notes/assumptions/4.md, 6.md). -/
def State.withFetchWord (s : State) (nbits w : Nat) : State :=
  { s with inputs := .word (wordBytes nbits w) :: s.inputs }

end Sys2Proof.Machine
end

