-- ==== Sys2Proof/Safety.lean ====
section
/-! DEFINITION. What a legal state of the block is (10_state.md), and runs of events and of track-layer rows, in the terms the
statements use. -/

namespace Sys2Proof.Machine

/-- Are the bytes at indexes 0 to `n - 1` written? -/
abbrev Memory.filled (m : Memory) (n : Nat) : Prop :=
  (Memory.load m 0 n).isSome

/-- Are all listed indexes below `bound`? -/
abbrev Memory.below (m : Memory) (bound : Nat) : Prop :=
  ∀ c ∈ m, c.1 < bound

/-- A descriptor is absent, all zero, or names a body inside `buf[0:len]` with at least one field (10_state.md R16). -/
abbrev TrackRec.legal (r : TrackRec) (len : Nat) : Prop :=
  r = .absent ∨ (r.present = true ∧ r.lo ≤ r.hi ∧ r.hi < len ∧ 1 ≤ r.nf ∧ r.nf ≤ r.hi - r.lo + 1)

/-- All three tracks absent. -/
abbrev tracksAbsent (s : State) : Prop :=
  s.trk1 = .absent ∧ s.trk2 = .absent ∧ s.trk3 = .absent

/-- The storage part of a legal state: parameters in range (00_scope.md R4), both byte arrays in canonical form, inside their
sizes and written below their lengths (R13, R14, R17). -/
abbrev storageLegal (s : State) : Prop :=
  s.params.wf ∧ Memory.wf s.buf ∧ Memory.wf s.exp ∧
  Memory.below s.buf s.params.payloadMax ∧ Memory.below s.exp s.params.wtextMax ∧
  s.len ≤ s.params.payloadMax ∧ s.explen ≤ s.params.wtextMax ∧
  Memory.filled s.buf s.len ∧ Memory.filled s.exp s.explen

/-- The control part: a result only in IDLE (R15), nothing accumulated outside a frame (R22), and no command running without a
text in ACK mode (42_write_protocol.md R112, R115). -/
abbrev controlLegal (s : State) : Prop :=
  (s.outcome ≠ .none → s.phase = .idle) ∧
  (s.phase = .hunt → s.len = 0) ∧
  (s.phase = .idle → s.outcome = .none → s.len = 0) ∧
  (s.phase ≠ .idle → s.mode = .ack → 1 ≤ s.explen)

/-- The track part: descriptors only after FRAME (R16), each legal. -/
abbrev tracksLegal (s : State) : Prop :=
  (s.outcome ≠ .frame → tracksAbsent s) ∧
  s.trk1.legal s.len ∧ s.trk2.legal s.len ∧ s.trk3.legal s.len

/-- The invariant of the block. -/
abbrev State.Inv (s : State) : Prop :=
  storageLegal s ∧ controlLegal s ∧ tracksLegal s

/-- What 10_state.md R22 says of the stored bytes and the tracks after each outcome. -/
abbrev resultsMeaningful (s : State) : Prop :=
  (s.outcome = .none → s.phase ≠ .data → s.len = 0) ∧
  (s.outcome = .frame → (payload s).bind (decodeTracks s.params) = some (s.trk1, s.trk2, s.trk3)) ∧
  (s.outcome = .decodeFault → (payload s).bind (decodeTracks s.params) = none) ∧
  (s.outcome = .transportFault ∨ s.outcome = .stopped ∨ s.outcome = .overflow → s.len = 0) ∧
  (s.outcome = .ackOk → payload s = expected s) ∧
  (s.outcome = .writeFailed → s.len = 0 ∨ payload s ≠ expected s) ∧
  (s.outcome = .noData → s.len = 0 ∧ s.explen = 0) ∧
  (s.outcome ≠ .frame → tracksAbsent s)

/-- No byte of the payload is a CR or an ETX (30_encoding.md R47, 40_frame_reader.md R79). -/
abbrev payloadClean (s : State) : Prop :=
  ∀ pl ∈ payload s, rawByte .CR ∉ pl ∧ rawByte .ETX ∉ pl

/-- `trk[n]` as the scan has it so far. -/
def Scan.trk (sc : Scan) : TrackNo → TrackRec
  | .one => sc.trk1
  | .two => sc.trk2
  | .three => sc.trk3

/-- Feed a list of events, one step's response each (00_scope.md R7). -/
def respondAll : List Event → State → Out
  | [], s => .next s
  | e :: es, s =>
    match respond e s with
    | .next t => respondAll es t
    | .fault r => .fault r
    | .refused r => .refused r

/-- Feed received bytes, in order. -/
def receive (bs : List Byte) (s : State) : Out :=
  respondAll (bs.map .rxByte) s

/-- Run, over payload bytes, the track-layer row of each (30_encoding.md R55), from where the scan stands. -/
def runTrackRows : List Byte → State → Out
  | [], s => .next s
  | b :: bs, s =>
    match exec (trackRow s.scan.context b) s with
    | .next t => runTrackRows bs t
    | .fault r => .fault r
    | .refused r => .refused r

/-- The payload function's result (40_frame_reader.md R79): what follows the STX with every CR removed. -/
def dropCr (bs : List Byte) : List Byte :=
  bs.filter (fun b => b != rawByte .CR)

/-- The bytes of a track record (30_encoding.md R48): start byte, reserved leading bytes, body, end byte; nothing for a record
that is not there. -/
def recordBytes (n : TrackNo) : Option (List Byte × List Byte) → List Byte
  | none => []
  | some (lead, body) => startByte n :: lead ++ body ++ [endByte n]

/-- A well-formed record of track `n` (R48, 41_track_decoder.md R104): as many reserved bytes as the track skips, an ASCII body,
no end byte inside. -/
abbrev recordLegal (q : Params) (n : TrackNo) : Option (List Byte × List Byte) → Prop
  | none => True
  | some (lead, body) =>
    lead.length = skipOf q n ∧ endByte n ∉ lead ∧ (∀ b ∈ body, isAscii b = true) ∧ endByte n ∉ body

/-- The descriptor of a record that starts at index `off` of the payload (10_state.md R16). -/
def recordDescriptor (n : TrackNo) (off : Nat) : Option (List Byte × List Byte) → TrackRec
  | none => .absent
  | some (lead, body) =>
    { present := true, lo := off + 1 + lead.length, hi := off + 1 + lead.length + body.length,
      nf := (split body (sepByte n)).length }

/-- The rows of formats `rx_byte` and `rx_fault`. -/
def isReceiveRow : Instr → Bool
  | .rxStxHunt | .rxDiscardHunt _ | .rxCrData | .rxEtxDataRead | .rxEtxDataAck | .rxStoreData _ | .rxOverflowData _
  | .rxIdle _ | .rxFault => true
  | _ => false

/-- The rows of formats `host_cmd` and `host_signal`. -/
def isHostRow : Instr → Bool
  | .cmdNone | .cmdRead | .cmdWrite _ | .cmdReserved | .cmdWhileBusy _ | .cancel | .cancelIdle | .reset => true
  | _ => false

/-- The rows of format `track_byte`. -/
def isTrackRow : Instr → Bool
  | .t1Start | .t1Sep | .t1End | .t2Start | .t2Sep | .t2End | .t3Start | .t3Sep | .t3End | .trkNonascii _ _
  | .trkFieldData _ _ => true
  | _ => false

/-- The rows that present a command to the block (00_scope.md R7). -/
def isCommandRow : Instr → Bool
  | .cmdRead | .cmdWrite _ | .cmdWhileBusy _ => true
  | _ => false

end Sys2Proof.Machine
end

