-- ==== Sys2Proof/Certificates/Slice0/Obligations.lean ====
section
/-! DEFINITION. The statements for the provers. Each docstring names the rule of spec/ it formalises; a clause that rests on a
choice of the model names the log entry. -/

open Sys2Proof Sys2Proof.Machine

/-! ### FrameReader (40_frame_reader.md) -/

/-- R72: an STX in HUNT opens a frame; nothing else changes, the STX is not stored. -/
def Obligations.StxInHuntOpensFrame : Prop :=
  ∀ s : State, s.phase = .hunt →
    exec .rxStxHunt s = .next { s with len := 0, phase := .data }

/-- R73: in HUNT any other byte is taken from the transport and discarded without a trace. -/
def Obligations.OtherByteInHuntIsDiscarded : Prop :=
  ∀ (s : State) (b : Byte), s.phase = .hunt → b ≠ 0x02#8 →
    exec (.rxDiscardHunt b) s = .next s ∧
    ∀ p : Pins, p.rst = false → p.cancel = false → p.rxFault = false → p.rxValid = true → takenByte s p = some p.rxData

/-- R74: in DATA a CR is taken from the transport and dropped, in both modes and at any fill of the buffer. -/
def Obligations.CrInDataIsDropped : Prop :=
  ∀ s : State, s.phase = .data →
    exec .rxCrData s = .next s ∧
    ∀ p : Pins, p.rst = false → p.cancel = false → p.rxFault = false → p.rxValid = true → takenByte s p = some p.rxData

/-- R75, R101: the ETX of a read frame ends the command with FRAME and the decoded tracks, or with DECODE_FAULT and no track; the
payload stays. `k`: what is left in the model's scan registers is not said here (log 9). -/
def Obligations.EtxEndsReadFrame : Prop :=
  ∀ (s : State) (pl : List Byte), s.phase = .data → s.mode = .read → payload s = some pl →
    (∀ r1 r2 r3, decodeTracks s.params pl = some (r1, r2, r3) →
      ∃ k, exec .rxEtxDataRead s =
        .next { s with outcome := .frame, phase := .idle, trk1 := r1, trk2 := r2, trk3 := r3, scan := k }) ∧
    (decodeTracks s.params pl = none →
      ∃ k, exec .rxEtxDataRead s =
        .next { s with outcome := .decodeFault, phase := .idle, trk1 := .absent, trk2 := .absent, trk3 := .absent,
                       scan := k })

/-- R76, R116: the ETX of an acknowledgment ends the command with ACK_OK when the lengths and every byte are equal, and with
WRITE_FAILED otherwise; the payload stays and no track is decoded. -/
def Obligations.EtxComparesAcknowledgment : Prop :=
  ∀ (s : State) (pl x : List Byte), s.phase = .data → s.mode = .ack → payload s = some pl → expected s = some x →
    ((s.len = s.explen ∧ ∀ i, i < s.len → Memory.read s.buf i = Memory.read s.exp i) →
      exec .rxEtxDataAck s =
        .next { s with outcome := .ackOk, phase := .idle, trk1 := .absent, trk2 := .absent, trk3 := .absent }) ∧
    (¬ (s.len = s.explen ∧ ∀ i, i < s.len → Memory.read s.buf i = Memory.read s.exp i) →
      exec .rxEtxDataAck s =
        .next { s with outcome := .writeFailed, phase := .idle, trk1 := .absent, trk2 := .absent, trk3 := .absent })

/-- R77, R34: any byte but ETX and CR, an STX among them, is stored at index `len` while there is room; every other byte of
`buf` reads as before and nothing else changes. -/
def Obligations.DataByteIsStored : Prop :=
  ∀ (s : State) (b : Byte), s.phase = .data → b ≠ 0x03#8 → b ≠ 0x15#8 → s.len < s.params.payloadMax →
    ∃ t, exec (.rxStoreData b) s = .next t ∧
      Memory.read t.buf s.len = some b ∧
      (∀ a, a ≠ s.len → Memory.read t.buf a = Memory.read s.buf a) ∧
      t = { s with buf := t.buf, len := s.len + 1 }

/-- R78, R119: a byte to be stored at a full buffer ends the command, OVERFLOW in READ mode and WRITE_FAILED in ACK mode, and
discards the payload; a CR there is still dropped. -/
def Obligations.FullBufferEndsCommand : Prop :=
  ∀ (s : State) (b : Byte), s.phase = .data → b ≠ 0x03#8 → b ≠ 0x15#8 → s.len = s.params.payloadMax →
    (s.mode = .read → exec (.rxOverflowData b) s =
      .next { s with outcome := .overflow, phase := .idle, len := 0, trk1 := .absent, trk2 := .absent, trk3 := .absent }) ∧
    (s.mode = .ack → exec (.rxOverflowData b) s =
      .next { s with outcome := .writeFailed, phase := .idle, len := 0, trk1 := .absent, trk2 := .absent, trk3 := .absent }) ∧
    exec .rxCrData s = .next s

/-- R71: in IDLE the block requests no byte: whatever the pins say none is taken, and neither a byte nor a failed read changes
the state. -/
def Obligations.IdleTakesNoByte : Prop :=
  ∀ (s : State) (b : Byte), s.phase = .idle →
    exec (.rxIdle b) s = .next s ∧ exec .rxFault s = .next s ∧
    ∀ p : Pins, rxReady s p = false ∧ takenByte s p = none

/-- R82: a failed read while a command runs ends it with TRANSPORT_FAULT, in both modes, and discards the payload; no byte is
taken by it. -/
def Obligations.FailedReadEndsCommand : Prop :=
  ∀ s : State, s.phase ≠ .idle →
    exec .rxFault s =
      .next { s with outcome := .transportFault, phase := .idle, len := 0, trk1 := .absent, trk2 := .absent,
                     trk3 := .absent } ∧
    ∀ p : Pins, p.rxFault = true → takenByte s p = none

/-- R54: the class of a received byte and the block's own condition select the row, the tests in the order of R158. -/
def Obligations.ReceivedByteSelectsItsRow : Prop :=
  ∀ (s : State) (b : Byte), ∃ i, decode (rxWord s.phase s.mode (bufferFull s) b) = .ok i ∧
    (s.phase = .idle → i = .rxIdle b) ∧
    (s.phase = .hunt → i = if b = 0x02#8 then .rxStxHunt else .rxDiscardHunt b) ∧
    (s.phase = .data → b = 0x03#8 → i = if s.mode = .read then .rxEtxDataRead else .rxEtxDataAck) ∧
    (s.phase = .data → b = 0x15#8 → i = .rxCrData) ∧
    (s.phase = .data → b ≠ 0x03#8 → b ≠ 0x15#8 →
      i = if s.len < s.params.payloadMax then .rxStoreData b else .rxOverflowData b)

/-- R79: the payload function. From HUNT, bytes without an STX leave the block hunting; after the first STX the block holds what
followed it with every CR removed, until an ETX, which is the ETX row of the mode. -/
def Obligations.ReceivedFrameIsItsPayload : Prop :=
  ∀ (s : State) (pre mid : List Byte), s.phase = .hunt → 0x02#8 ∉ pre → 0x03#8 ∉ mid →
    (dropCr mid).length ≤ s.params.payloadMax →
    receive pre s = .next s ∧
    ∃ t, receive (pre ++ 0x02#8 :: mid) s = .next t ∧
      payload t = some (dropCr mid) ∧
      t = { s with phase := .data, len := (dropCr mid).length, buf := t.buf } ∧
      receive (pre ++ 0x02#8 :: mid ++ [0x03#8]) s =
        (if s.mode = .read then exec .rxEtxDataRead t else exec .rxEtxDataAck t)

/-- R81: the receive rows write only `phase`, `len`, `buf`, `outcome` and `trk`; `k` is the model's scan registers (log 9). -/
def Obligations.ReceiveRowsWriteOnlyReceiveState : Prop :=
  ∀ (i : Instr) (s t : State), isReceiveRow i = true → exec i s = .next t →
    ∃ k, t = { s with phase := t.phase, len := t.len, buf := t.buf, outcome := t.outcome,
                      trk1 := t.trk1, trk2 := t.trk2, trk3 := t.trk3, scan := k }

/-- R184: at most `PAYLOAD_MAX` storing events can occur in DATA before the command ends. -/
def Obligations.StoringEventsAreBounded : Prop :=
  ∀ (s : State) (bs : List Byte), s.phase = .data → s.len ≤ s.params.payloadMax →
    (∀ b ∈ bs, b ≠ 0x03#8 ∧ b ≠ 0x15#8) → s.params.payloadMax < s.len + bs.length →
    ∃ t, receive bs s = .next t ∧ t.phase = .idle ∧ t.len = 0 ∧
      t.outcome = if s.mode = .read then .overflow else .writeFailed

/-! ### TrackDecoder (41_track_decoder.md) -/

/-- R92, R94, R97, R98: what a present track's descriptor and cursor are; its field count is the number of segments of its body
(R95). -/
def Obligations.PresentTrackIsDelimited : Prop :=
  ∀ (k : Nat) (n : TrackNo) (pl : List Byte) (p lo hi nf p' : Nat),
    extract k n pl p = .present lo hi nf p' →
    pl[p]? = some (startByte n) ∧ pl[hi]? = some (endByte n) ∧ p < hi ∧
    (∀ i, p ≤ i → i < hi → pl[i]? ≠ some (endByte n)) ∧
    lo = min (p + 1 + k) hi ∧ p + 1 ≤ lo ∧ lo ≤ hi ∧ hi < pl.length ∧ p' = hi + 1 ∧
    nf = 1 + (slice pl lo hi).count (sepByte n) ∧ nf ≤ hi - lo + 1 ∧
    nf = (split (slice pl lo hi) (sepByte n)).length ∧
    (∀ b ∈ slice pl lo hi, isAscii b = true)

/-- R91, R93: when a track is absent, and that the cursor then stays. -/
def Obligations.AbsentTrackKeepsCursor : Prop :=
  ∀ (k : Nat) (n : TrackNo) (pl : List Byte) (p p' : Nat),
    extract k n pl p = .absent p' ↔
      p' = p ∧ (pl[p]? = some (startByte n) → ∀ i, p ≤ i → pl[i]? ≠ some (endByte n))

/-- R95: `split` is the one sequence of segments that hold no separator and give the sequence back when joined by it. -/
def Obligations.SplitIsTheUniqueSegmentation : Prop :=
  ∀ (l : List Byte) (c : Byte),
    (∀ f ∈ split l c, c ∉ f) ∧ [c].intercalate (split l c) = l ∧ (split l c).length = l.count c + 1 ∧
    ∀ fs : List (List Byte), fs ≠ [] → (∀ f ∈ fs, c ∉ f) → [c].intercalate fs = l → fs = split l c

/-- R104: any subset of well-formed records in track order, and nothing else, decodes to exactly those records; and the
descriptor of a record, wherever it stands in a payload, names the record's own body, so that the fields are its own. -/
def Obligations.AnySubsetOfRecordsDecodes : Prop :=
  ∀ (q : Params) (o1 o2 o3 : Option (List Byte × List Byte)),
    recordLegal q .one o1 → recordLegal q .two o2 → recordLegal q .three o3 →
    decodeTracks q (recordBytes .one o1 ++ recordBytes .two o2 ++ recordBytes .three o3) =
      some (recordDescriptor .one 0 o1,
            recordDescriptor .two (recordBytes .one o1).length o2,
            recordDescriptor .three (recordBytes .one o1 ++ recordBytes .two o2).length o3) ∧
    (∀ (n : TrackNo) (pre post lead body : List Byte),
      let r := recordDescriptor n pre.length (some (lead, body))
      slice (pre ++ recordBytes n (some (lead, body)) ++ post) r.lo r.hi = body)

/-- R105: a track whose end byte is missing is absent, and so is every other track looked for at that cursor; a payload whose
track 1 has no end byte has no track. -/
def Obligations.MissingEndByteHidesLaterTracks : Prop :=
  ∀ (q : Params) (n : TrackNo) (pl : List Byte) (p : Nat), pl[p]? = some (startByte n) →
    (∀ i, p ≤ i → pl[i]? ≠ some (endByte n)) →
    (∀ m, extract (skipOf q m) m pl p = .absent p) ∧
    (n = .one → p = 0 → decodeTracks q pl = some (.absent, .absent, .absent))

/-- R96, R150: a decode faults only on a byte >= 0x80. -/
def Obligations.AsciiPayloadNeverFaults : Prop :=
  ∀ (q : Params) (pl : List Byte), (∀ b ∈ pl, isAscii b = true) →
    ∃ r1 r2 r3, decodeTracks q pl = some (r1, r2, r3)

/-- R91, R103: a start byte met at the cursor of track `n` opens its record when its track is `n` or a later one; the start byte
of an earlier track makes every remaining track absent; outside a record and past the cursor it is residue (log 9: the rows act on
the model's scan registers). -/
def Obligations.StartByteOpensRecord : Prop :=
  ∀ (s : State) (k : TrackNo),
    (∀ n, s.scan.pos = .cursor n → trackNumber n ≤ trackNumber k →
      exec (startRow k) s =
        .next { s with scan := { s.scan with pos := .body k s.scan.idx 1 false, idx := s.scan.idx + 1 } }) ∧
    (∀ n, s.scan.pos = .cursor n → trackNumber k < trackNumber n →
      exec (startRow k) s = .next { s with scan := { s.scan with pos := .residue, idx := s.scan.idx + 1 } }) ∧
    (s.scan.pos = .residue ∨ s.scan.pos = .fault →
      exec (startRow k) s = .next { s with scan := { s.scan with idx := s.scan.idx + 1 } })

/-- R94: a reserved position behind the start byte is neither counted nor checked, whatever byte but the end byte it holds
(log 9). -/
def Obligations.ReservedPositionIsPassedOver : Prop :=
  ∀ (s : State) (n : TrackNo) (p nf : Nat) (bad : Bool) (b : Byte), s.scan.pos = .body n p nf bad →
    s.scan.idx < p + 1 + skipOf s.params n → b ≠ endByte n →
    exec (trackRow (.inside n) b) s = .next { s with scan := { s.scan with idx := s.scan.idx + 1 } }

/-- R95: a separator inside the body adds a field (log 9). -/
def Obligations.SeparatorAddsField : Prop :=
  ∀ (s : State) (n : TrackNo) (p nf : Nat) (bad : Bool), s.scan.pos = .body n p nf bad →
    p + 1 + skipOf s.params n ≤ s.scan.idx →
    exec (sepRow n) s =
      .next { s with scan := { s.scan with pos := .body n p (nf + 1) bad, idx := s.scan.idx + 1 } }

/-- R92, R94, R96, R97, R98: the end byte closes the record: the descriptor of a clean body, a fault and no track for a body with
a byte >= 0x80 (log 9). -/
def Obligations.EndByteClosesRecord : Prop :=
  ∀ (s : State) (n : TrackNo) (p nf : Nat) (bad : Bool), s.scan.pos = .body n p nf bad →
    ∃ k, exec (endRow n) s = .next { s with scan := k } ∧ k.idx = s.scan.idx + 1 ∧
      (bad = true → k.pos = .fault ∧ ∀ m, k.trk m = .absent) ∧
      (bad = false → k.pos = afterTrack n ∧
        k.trk n = { present := true, lo := min (p + 1 + skipOf s.params n) s.scan.idx, hi := s.scan.idx, nf := nf } ∧
        ∀ m, m ≠ n → k.trk m = s.scan.trk m)

/-- R96: a byte >= 0x80 inside the body marks it (log 9); what a mark does is said by `EndByteClosesRecord`. -/
def Obligations.NonAsciiByteMarksBody : Prop :=
  ∀ (s : State) (n : TrackNo) (p nf : Nat) (bad : Bool) (b : Byte), s.scan.pos = .body n p nf bad →
    p + 1 + skipOf s.params n ≤ s.scan.idx → isAscii b = false →
    exec (.trkNonascii n b) s =
      .next { s with scan := { s.scan with pos := .body n p nf true, idx := s.scan.idx + 1 } }

/-- R56, R95: field data is passed over as it is; a byte at the cursor that starts no remaining track makes all of them absent
(R91); residue is ignored (R103) (log 9). -/
def Obligations.OtherPayloadByteIsPassedOver : Prop :=
  ∀ (s : State) (c : TrackCtx) (b : Byte), Instr.wellFormed (.trkFieldData c b) = true → s.scan.context = c →
    exec (.trkFieldData c b) s =
      .next { s with scan := { s.scan with idx := s.scan.idx + 1,
                                           pos := match s.scan.pos with
                                             | .cursor _ => .residue
                                             | .body n p nf bad => .body n p nf bad
                                             | .residue => .residue
                                             | .fault => .fault } }

/-- R55, R99, R102: running, from the start of a decode, the track-layer row of each payload byte decodes what `decode_tracks`
decodes, and touches nothing but the scan registers (log 9). -/
def Obligations.TrackRowsComputeDecode : Prop :=
  ∀ (s : State) (pl : List Byte), s.scan = Scan.init →
    ∃ k, runTrackRows pl s = .next { s with scan := k } ∧ k.result = decodeTracks s.params pl

/-! ### WriteProtocol (42_write_protocol.md) -/

/-- R111: `trim` takes away the surrounding whitespace and nothing else. -/
def Obligations.TrimRemovesSurroundingWhitespace : Prop :=
  (∀ b : Byte, isWhitespace b = true ↔ b ∈ [0x09#8, 0x0A#8, 0x0B#8, 0x0C#8, 0x0D#8, 0x20#8]) ∧
  ∀ t : List Byte,
    (∃ a b, t = a ++ trim t ++ b ∧ (∀ x ∈ a, isWhitespace x = true) ∧ ∀ x ∈ b, isWhitespace x = true) ∧
    (∀ x ∈ (trim t).head?, isWhitespace x = false) ∧ (∀ x ∈ (trim t).getLast?, isWhitespace x = false) ∧
    (trim t = [] ↔ ∀ x ∈ t, isWhitespace x = true)

/-- R110, R113, R115: a write command in IDLE clears the results, stores the trimmed text, sends both frames as one action and
waits for the acknowledgment. That bytes of `exp` from the text's length on read as before is the model's choice (log 3: R17 and
93_implementation_defined.md U5 leave them unspecified); that a text with bytes >= 0x80 is sent as it is, is the model's choice
too (log 14). -/
def Obligations.WriteCommandSendsText : Prop :=
  ∀ (s : State) (t : List Byte), s.phase = .idle → t.length ≤ s.params.wtextMax → trim t ≠ [] →
    ∃ u, exec (.cmdWrite t) s = .next u ∧
      expected u = some (trim t) ∧
      (∀ a, (trim t).length ≤ a → Memory.read u.exp a = Memory.read s.exp a) ∧
      u = { s with outcome := .none, len := 0, trk1 := .absent, trk2 := .absent, trk3 := .absent, mode := .ack,
                   exp := u.exp, explen := (trim t).length,
                   tx := s.tx ++ [[0x02#8, 0x60#8, 0x03#8, 0x02#8] ++ trim t ++ [0x03#8]], phase := .hunt }

/-- R112: a text of whitespace only ends at once with NO_DATA; nothing is sent and no byte of `exp` is written. -/
def Obligations.EmptyTextGivesNoData : Prop :=
  ∀ (s : State) (t : List Byte), s.phase = .idle → t.length ≤ s.params.wtextMax → trim t = [] →
    exec (.cmdWrite t) s =
      .next { s with outcome := .noData, len := 0, trk1 := .absent, trk2 := .absent, trk3 := .absent, mode := .ack,
                     explen := 0, phase := .idle }

/-- A text longer than WTEXT_MAX is no operand of the command (R110 gives the bound): the model refuses it, its own choice
(log 13). -/
def Obligations.OverlongTextIsRefused : Prop :=
  ∀ (s : State) (t : List Byte), s.phase = .idle → s.params.wtextMax < t.length →
    exec (.cmdWrite t) s = .refused .writeTextTooLong

/-- R53, R113, R114: the row OP_RAW_WRITE sends the command frame and the data frame that carries `exp[0:explen]`, one action;
that the row alone sends `exp`, and nothing when it is empty, is the model's reading (log 11). -/
def Obligations.OpRawWriteSendsBothFrames : Prop :=
  ∀ (s : State) (x : List Byte), expected s = some x →
    (x ≠ [] → exec .opRawWrite s =
      .next { s with tx := s.tx ++ [[0x02#8, 0x60#8, 0x03#8, 0x02#8] ++ x ++ [0x03#8]] }) ∧
    (x = [] → exec .opRawWrite s = .next s)

/-- R121: after a write command, a data frame that echoes the text gives ACK_OK and one of the same length that differs in any
byte gives WRITE_FAILED. -/
def Obligations.EchoDecidesTheWrite : Prop :=
  ∀ (s : State) (t y : List Byte), s.params.wf → s.phase = .idle → t.length ≤ s.params.wtextMax → trim t ≠ [] →
    (∀ b ∈ trim t, b ≠ 0x02#8 ∧ b ≠ 0x03#8 ∧ b ≠ 0x15#8) →
    y.length = (trim t).length → (∀ b ∈ y, b ≠ 0x02#8 ∧ b ≠ 0x03#8 ∧ b ≠ 0x15#8) →
    ∃ u, respondAll (.cmdWrite t :: (0x02#8 :: y ++ [0x03#8]).map .rxByte) s = .next u ∧ u.phase = .idle ∧
      payload u = some y ∧ u.outcome = if y = trim t then .ackOk else .writeFailed

/-- R118: a write transaction is busy with outcome NONE until it ends in one of four outcomes, or a reset wipes it. -/
def Obligations.WriteEndsInOneOfFourOutcomes : Prop :=
  ∀ s t : State, s.phase ≠ .idle → s.mode = .ack → s.outcome = .none → step s = .next t →
    (t.phase ≠ .idle ∧ t.mode = .ack ∧ t.outcome = .none) ∨
    (t.phase = .idle ∧ t.mode = .ack ∧ t.outcome ∈ [.ackOk, .writeFailed, .transportFault, .stopped]) ∨
    t = resetState { s with inputs := t.inputs }

/-! ### ConstantsTable (30_encoding.md, 43_constants_table.md) -/

/-- R45, R131: the thirteen values, and the encoded view of each. -/
def Obligations.ConstantsHaveTheirValues : Prop :=
  [ConstName.STX, .ETX, .CR, .T1_START, .T1_SEP, .T1_END, .T2_START, .T2_SEP, .T2_END, .T3_START, .T3_SEP, .T3_END,
    .OP_RAW_WRITE].map (fun k => (rawByte k).toNat) =
    [0x02, 0x03, 0x15, 0x25, 0x5E, 0x3F, 0x3B, 0x3D, 0x3F, 0x2B, 0x24, 0x3F, 0x60] ∧
  ∀ k, encodedByte k = [rawByte k]

/-- R63 (b) to (e): the properties of the constants that other rules rely on. The count of (a) disagrees with the table of R45,
which the model follows (log 23). -/
def Obligations.DelimitersAreDistinct : Prop :=
  (∀ n, startByte n ≠ sepByte n ∧ startByte n ≠ endByte n ∧ sepByte n ≠ endByte n) ∧
  (∀ m n, startByte m = startByte n → m = n) ∧
  (∀ n, ∀ b ∈ [startByte n, sepByte n, endByte n], 0x24 ≤ b.toNat ∧ b.toNat ≤ 0x5E) ∧
  (rawByte .STX).toNat < 0x20 ∧ (rawByte .ETX).toNat < 0x20 ∧ (rawByte .CR).toNat < 0x20 ∧
  ∀ k, isAscii (rawByte k) = true

/-- R33, R130: the constant rows are lookups and change nothing (log 10). -/
def Obligations.ConstantRowsChangeNothing : Prop :=
  ∀ s : State, exec .stx s = .next s ∧ exec .etx s = .next s ∧ exec .cr s = .next s

/-! ### Host control and reset (44_host_control.md, 70_reset_and_hazards.md) -/

/-- R135: a read command in IDLE clears the results and starts hunting; `exp` and `explen` are untouched; from then on bytes are
requested; and a read command that runs ends with one of its five outcomes, or a reset wipes it. -/
def Obligations.ReadCommandStartsHunting : Prop :=
  (∀ s : State, s.phase = .idle →
    ∃ t, exec .cmdRead s = .next t ∧
      t = { s with outcome := .none, len := 0, trk1 := .absent, trk2 := .absent, trk3 := .absent, mode := .read,
                   phase := .hunt } ∧
      ∀ p : Pins, p.cancel = false → p.rst = false → rxReady t p = true) ∧
  ∀ s t : State, s.phase ≠ .idle → s.mode = .read → s.outcome = .none → step s = .next t →
    (t.phase ≠ .idle ∧ t.mode = .read ∧ t.outcome = .none) ∨
    (t.phase = .idle ∧ t.mode = .read ∧ t.outcome ∈ [.frame, .decodeFault, .overflow, .transportFault, .stopped]) ∨
    t = resetState { s with inputs := t.inputs }

/-- R136, R59: a command while one runs is ignored; `cmd` = 0 and `cmd` = 3 are no command in any phase. -/
def Obligations.CommandWhileBusyIsIgnored : Prop :=
  (∀ (s : State) (c : BusyCmd) (t : List Byte), s.phase ≠ .idle →
    exec (.cmdWhileBusy c) s = .next s ∧ exec .cmdRead s = .next s ∧ exec (.cmdWrite t) s = .next s) ∧
  ∀ s : State, exec .cmdReserved s = .next s ∧ exec .cmdNone s = .next s

/-- R137: a cancel while a command runs ends it with STOPPED, in both modes, and discards the payload; it is neither `ok` nor
`err`, and the byte offered in its cycle is not taken. -/
def Obligations.CancelStopsTheCommand : Prop :=
  ∀ s : State, s.phase ≠ .idle →
    ∃ t, exec .cancel s = .next t ∧
      t = { s with outcome := .stopped, phase := .idle, len := 0, trk1 := .absent, trk2 := .absent, trk3 := .absent } ∧
      okFlag t = false ∧ errFlag t = false ∧ ∀ p : Pins, p.cancel = true → takenByte s p = none

/-- R138: a cancel in IDLE has no effect, and a command presented in the same cycle is ignored. -/
def Obligations.CancelInIdleHasNoEffect : Prop :=
  ∀ s : State, s.phase = .idle →
    exec .cancelIdle s = .next s ∧ exec .cancel s = .next s ∧
    ∀ (p : Pins) (rest : List Input), s.inputs = .cycle p :: rest → p.rst = false → p.cancel = true →
      step s = .next { s with inputs := rest }

/-- R175, R23: Reset, in every state, leaves every element at its reset value; the contents of `buf` and `exp` are not said
(the spec leaves them unspecified). Parameters, inputs and what was sent stay. That `tx_valid` is 0 after Reset is R23's; the
model has it from R114's `Tx`, which completes inside its step (log 12). -/
def Obligations.ResetRestoresResetValues : Prop :=
  ∀ s : State, ∃ t, exec .reset s = .next t ∧
    t.phase = .idle ∧ t.mode = .read ∧ t.len = 0 ∧ t.outcome = .none ∧ t.explen = 0 ∧
    (∀ n, trkOf t n = { present := false, lo := 0, hi := 0, nf := 0 }) ∧
    busy t = false ∧ done t = false ∧ okFlag t = false ∧ errFlag t = false ∧ (∀ p, rxReady t p = false) ∧
    txValid t = false ∧ t.params = s.params ∧ t.inputs = s.inputs ∧ t.tx = s.tx

/-- R23: the machine right after reset. -/
def Obligations.ResetStateHasResetValues : Prop :=
  State.reset.phase = .idle ∧ State.reset.mode = .read ∧ State.reset.len = 0 ∧ State.reset.outcome = .none ∧
  State.reset.explen = 0 ∧ (∀ n, trkOf State.reset n = { present := false, lo := 0, hi := 0, nf := 0 }) ∧
  busy State.reset = false ∧ done State.reset = false ∧ okFlag State.reset = false ∧ errFlag State.reset = false ∧
  txValid State.reset = false ∧ ∀ p, rxReady State.reset p = false

/-- R157: the fixed priority of a cycle's inputs, and that a losing byte is not taken. In the terms of the events of 00_scope.md
R7: the machine's step at a cycle is the response to the event the cycle resolves into, and nothing but the use of the input where
there is no event; so the statements over `respond`, `respondAll` and `receive` speak of the machine. -/
def Obligations.CycleInputsArePrioritised : Prop :=
  ∀ (s : State) (p : Pins) (rest : List Input), s.inputs = .cycle p :: rest →
    (∀ e, arbitrate s p = some e → step s = respond e { s with inputs := rest }) ∧
    (arbitrate s p = none → step s = .next { s with inputs := rest }) ∧
    (p.rst = true →
      step s = exec .reset { s with inputs := rest } ∧ rxReady s p = false ∧ takenByte s p = none) ∧
    (p.rst = false → p.cancel = true →
      step s = exec .cancel { s with inputs := rest } ∧ rxReady s p = false ∧ takenByte s p = none) ∧
    (p.rst = false → p.cancel = false → s.phase ≠ .idle →
      (p.rxFault = true → step s = exec .rxFault { s with inputs := rest } ∧ takenByte s p = none) ∧
      (p.rxFault = false → p.rxValid = true →
        takenByte s p = some p.rxData ∧
        ∃ i, decode (rxWord s.phase s.mode (bufferFull s) p.rxData) = .ok i ∧ step s = exec i { s with inputs := rest }) ∧
      (p.rxFault = false → p.rxValid = false → step s = .next { s with inputs := rest })) ∧
    (p.rst = false → p.cancel = false → s.phase = .idle →
      takenByte s p = none ∧
      (p.cmd = 1#2 → step s = exec .cmdRead { s with inputs := rest }) ∧
      (p.cmd = 2#2 → step s = exec (.cmdWrite p.wtext) { s with inputs := rest }) ∧
      (p.cmd ≠ 1#2 → p.cmd ≠ 2#2 → step s = .next { s with inputs := rest }))

/-- R154: `done` is cleared only by a command or by Reset. -/
def Obligations.DoneIsClearedOnlyByCommandOrReset : Prop :=
  ∀ (i : Instr) (s t : State), done s = true → exec i s = .next t → done t = false →
    isCommandRow i = true ∨ i = .reset

/-- R152, R18: what ending a command does, for the outcomes other than NONE, and the flags it leaves; R11, R12, R15, R18: the
flags and the codes on the output ports in every state. -/
def Obligations.FinishWritesTheOutcome : Prop :=
  (∀ (code : ResultCode) (s : State), code ≠ .none →
    (∀ k, busy (finish code k s) = false ∧ done (finish code k s) = true ∧
      (okFlag (finish code k s) = true ↔ code = .frame ∨ code = .ackOk) ∧
      (errFlag (finish code k s) = true ↔
        code = .decodeFault ∨ code = .transportFault ∨ code = .overflow ∨ code = .writeFailed ∨ code = .noData)) ∧
    finish code .discard s =
      (if code = .frame then { s with outcome := code, phase := .idle, len := 0 }
       else { s with outcome := code, phase := .idle, len := 0, trk1 := .absent, trk2 := .absent, trk3 := .absent }) ∧
    finish code .keep s =
      (if code = .frame then { s with outcome := code, phase := .idle }
       else { s with outcome := code, phase := .idle, trk1 := .absent, trk2 := .absent, trk3 := .absent })) ∧
  (∀ s : State, (busy s = true ↔ s.phase ≠ .idle) ∧ (done s = true ↔ s.phase = .idle ∧ s.outcome ≠ .none) ∧
    (okFlag s = true ↔ s.outcome ∈ [.frame, .ackOk]) ∧
    (errFlag s = true ↔ s.outcome ∈ [.decodeFault, .transportFault, .overflow, .writeFailed, .noData]) ∧
    (∀ n, trackPresent s n = (trkOf s n).present) ∧
    [ResultCode.none, .frame, .decodeFault, .transportFault, .stopped, .overflow, .ackOk, .writeFailed, .noData].map
      (fun c => (outcomePort { s with outcome := c }).toNat) = [0, 1, 2, 3, 4, 5, 6, 7, 8] ∧
    [Phase.idle, .hunt, .data].map (fun f => (phasePort { s with phase := f }).toNat) = [0, 1, 2] ∧
    [Mode.read, .ack].map (fun m => (modePort { s with mode := m }).toNat) = [0, 1])

/-! ### Who may write what (10_state.md, 20_memory.md) -/

/-- R12: `mode` is written only by `CmdRead`, to READ, by `CmdWrite`, to ACK, both in IDLE, and by Reset, to READ. -/
def Obligations.ModeIsWrittenOnlyByCommands : Prop :=
  ∀ (i : Instr) (s t : State), exec i s = .next t → t.mode ≠ s.mode →
    (s.phase = .idle ∧ t.mode = .read ∧ (i = .cmdRead ∨ i = .cmdWhileBusy .read)) ∨
    (s.phase = .idle ∧ t.mode = .ack ∧ ∃ x, i = .cmdWrite x ∨ i = .cmdWhileBusy (.write x)) ∨
    (i = .reset ∧ t.mode = .read)

/-- R17: `exp` and `explen` are changed only by a write command, in IDLE, and by Reset. -/
def Obligations.ExpectedTextIsWrittenOnlyByWrite : Prop :=
  ∀ (i : Instr) (s t : State), exec i s = .next t → (t.exp ≠ s.exp ∨ t.explen ≠ s.explen) →
    (s.phase = .idle ∧ ((∃ x, i = .cmdWrite x) ∨ ∃ x, i = .cmdWhileBusy (.write x))) ∨ i = .reset

/-- R34: but for Reset, `buf` changes only in DATA, only at index `len`, and then `len` rises by one. -/
def Obligations.BufferIsWrittenOnlyAtLen : Prop :=
  ∀ (i : Instr) (s t : State), exec i s = .next t → i ≠ .reset →
    ∀ a, Memory.read t.buf a ≠ Memory.read s.buf a → s.phase = .data ∧ a = s.len ∧ t.len = s.len + 1

/-- R114: only a write command and OP_RAW_WRITE transmit, one action appended whole; nothing sent is ever taken back. -/
def Obligations.TransmissionIsOneAppendedAction : Prop :=
  ∀ (i : Instr) (s t : State), exec i s = .next t → t.tx ≠ s.tx →
    (∃ x, x ≠ [] ∧ t.tx = s.tx ++ [[0x02#8, 0x60#8, 0x03#8, 0x02#8] ++ x ++ [0x03#8]]) ∧
    (i = .opRawWrite ∨ (∃ x, i = .cmdWrite x) ∨ ∃ x, i = .cmdWhileBusy (.write x))

/-- R35, R42: the host's read port gives a payload byte in IDLE below `len`, and nothing anywhere else. -/
def Obligations.HostReadsOnlyThePayload : Prop :=
  ∀ (s : State) (pl : List Byte), payload s = some pl →
    ∀ i, hostRead s i = if s.phase = .idle then pl[i]? else none

/-! ### Encoding, stepping, invariants -/

/-- Decode gives back what encode wrote, for every well-formed row and every operand. The word layout is the model's choice
(log 5). -/
def Obligations.DecodeInvertsEncode : Prop :=
  ∀ i : Instr, i.wellFormed = true → decode (encode i) = .ok i

/-- Every clock cycle, in every state, stands for a well-formed row of the receive or host formats: no cycle is rejected. The
word layout, and which row a cycle without event stands for, are the model's choices (log 5, log 17). -/
def Obligations.EveryCycleDecodesToARow : Prop :=
  ∀ (s : State) (p : Pins), ∃ i, decode (cycleWord s p) = .ok i ∧ i.wellFormed = true ∧
    (isReceiveRow i = true ∨ isHostRow i = true)

/-- A few words written from the table decode to their rows (a sanity statement). Their selector bytes are the model's choice
(log 5). -/
def Obligations.TableWordsDecode : Prop :=
  decode [0x02#8, 0x11#8] = .ok .rxStxHunt ∧ decode [0x03#8, 0x16#8] = .ok .rxEtxDataAck ∧
  decode [0x15#8, 0x30#8] = .ok .cr ∧ decode [0x3D#8, 0x42#8] = .ok .t2Sep ∧
  decode [0x60#8, 0x50#8] = .ok .opRawWrite ∧ decode [0x02#8, 0x60#8, 0x41#8] = .ok (.cmdWrite [0x41#8])

/-- A step takes the next input, decodes its word and runs the row; with no input the block waits (R163); a script word that is
no row is refused by name (log 5). -/
def Obligations.StepRunsTheDecodedRow : Prop :=
  (∀ (s : State) (inp : Input) (rest : List Input) (i : Instr), s.inputs = inp :: rest →
    decode (fetchWord s inp) = .ok i → step s = exec i { s with inputs := rest }) ∧
  (∀ (s : State) (inp : Input) (rest : List Input) (e : DecodeError), s.inputs = inp :: rest →
    decode (fetchWord s inp) = .error e → step s = .refused (.badWord e)) ∧
  ∀ s : State, s.inputs = [] → step s = .next s

/-- The invariant holds at reset. -/
def Obligations.ResetMeetsInvariant : Prop :=
  State.reset.Inv

/-- Every step keeps the invariant: storage canonical, bounded and written (R13, R14, R17), results only in IDLE (R15), track
descriptors legal and only after FRAME (R16). The parameters are fixed when the block is built (R177): no step changes them. -/
def Obligations.EveryStepKeepsInvariant : Prop :=
  ∀ s t : State, s.Inv → step s = .next t → t.Inv ∧ t.params = s.params

/-- R22: what is meaningful after each outcome stays so over every step. -/
def Obligations.EveryStepKeepsResultsMeaningful : Prop :=
  ∀ s t : State, s.Inv → resultsMeaningful s → step s = .next t → resultsMeaningful t

/-- R47: no step puts a CR or an ETX into the payload. -/
def Obligations.EveryStepKeepsPayloadClean : Prop :=
  ∀ s t : State, payloadClean s → step s = .next t → payloadClean t

/-- R10, R31: in a legal state every index fits its port of `LW` bits. -/
def Obligations.IndexesFitTheirPorts : Prop :=
  ∀ s : State, s.Inv →
    (indexPort s s.len).toNat = s.len ∧ (indexPort s s.explen).toNat = s.explen ∧
    ∀ n, (indexPort s (trkOf s n).lo).toNat = (trkOf s n).lo ∧ (indexPort s (trkOf s n).hi).toNat = (trkOf s n).hi ∧
      (indexPort s (trkOf s n).nf).toNat = (trkOf s n).nf

/-- No run from a legal state faults (60_exceptions.md R150: there is no other exception): the model's faults are unreachable
(log 15). -/
def Obligations.RunsFromLegalStatesNeverFault : Prop :=
  ∀ (n : Nat) (s : State), s.Inv → ∀ r, Sys2Proof.core.run n s ≠ .fault r
end

