-- ==== Sys2Proof/Laws/Memory.lean ====
section
/-! SUPPORT. The laws of the byte arrays: read after write, the canonical form, the bound on listed indexes, and what `load`
reads after a write. -/

namespace Sys2Proof.Machine

@[simp] theorem Memory.read_nil (a : Nat) : Memory.read [] a = none := rfl

theorem Memory.read_cons (i : Nat) (v : Byte) (m : Memory) (a : Nat) :
    Memory.read ((i, v) :: m) a = if i = a then some v else Memory.read m a := rfl

/-- A read after a write: the written index has the byte, every other index is as it was. -/
theorem Memory.read_write (m : Memory) (a : Nat) (b : Byte) (c : Nat) :
    Memory.read (Memory.write m a b) c = if c = a then some b else Memory.read m c := by
  induction m with
  | nil => simp [Memory.write, Memory.read, eq_comm]
  | cons cell m ih =>
    obtain ⟨i, v⟩ := cell
    simp only [Memory.write]
    split
    · simp only [Memory.read_cons]; grind
    · split
      · simp only [Memory.read_cons]; grind
      · simp only [Memory.read_cons, ih]; grind

@[simp] theorem Memory.read_write_same (m : Memory) (a : Nat) (b : Byte) :
    Memory.read (Memory.write m a b) a = some b := by
  simp [Memory.read_write]

theorem Memory.read_write_other {m : Memory} {a c : Nat} (b : Byte) (h : c ≠ a) :
    Memory.read (Memory.write m a b) c = Memory.read m c := by
  simp [Memory.read_write, h]

/-- Every cell of a written array is the new one or an old one. -/
theorem Memory.mem_write {m : Memory} {a : Nat} {b : Byte} {c : Host.Cell}
    (h : c ∈ Memory.write m a b) : c = (a, b) ∨ c ∈ m := by
  induction m with
  | nil => simpa [Memory.write] using h
  | cons cell m ih =>
    obtain ⟨i, v⟩ := cell
    simp only [Memory.write] at h
    split at h
    · simpa using h
    · split at h
      · rcases List.mem_cons.mp h with h | h
        · exact .inl h
        · exact .inr (List.mem_cons_of_mem _ h)
      · rcases List.mem_cons.mp h with h | h
        · exact .inr (h ▸ List.mem_cons_self)
        · rcases ih h with h | h
          · exact .inl h
          · exact .inr (List.mem_cons_of_mem _ h)

theorem Memory.wf_nil : Memory.wf [] := List.Pairwise.nil

/-- A write keeps the canonical form. -/
theorem Memory.wf_write {m : Memory} (a : Nat) (b : Byte) (h : Memory.wf m) :
    Memory.wf (Memory.write m a b) := by
  induction m with
  | nil => simp [Memory.write, Memory.wf]
  | cons cell m ih =>
    obtain ⟨i, v⟩ := cell
    have ⟨hi, hm⟩ := List.pairwise_cons.mp h
    simp only [Memory.write]
    split
    · refine List.pairwise_cons.mpr ⟨?_, h⟩
      intro c hc
      rcases List.mem_cons.mp hc with rfl | hc
      · assumption
      · have := hi c hc; simp only at this ⊢; omega
    · split
      · subst_vars; exact List.pairwise_cons.mpr ⟨hi, hm⟩
      · refine List.pairwise_cons.mpr ⟨?_, ih hm⟩
        intro c hc
        rcases Memory.mem_write hc with rfl | hc
        · simp only; omega
        · exact hi c hc

theorem Memory.wf_writeAll (bs : List Byte) :
    ∀ {m : Memory} (a : Nat), Memory.wf m → Memory.wf (Memory.writeAll m a bs) := by
  induction bs with
  | nil => intro m a h; exact h
  | cons b bs ih => intro m a h; exact ih (a + 1) (Memory.wf_write a b h)

/-- What a sequence write leaves at each index. -/
theorem Memory.read_writeAll (bs : List Byte) :
    ∀ (m : Memory) (a c : Nat), Memory.read (Memory.writeAll m a bs) c =
      if a ≤ c ∧ c < a + bs.length then bs[c - a]? else Memory.read m c := by
  induction bs with
  | nil => intro m a c; simp [Memory.writeAll]
  | cons b bs ih =>
    intro m a c
    simp only [Memory.writeAll, ih, Memory.read_write, List.length_cons]
    by_cases h : c = a
    · subst h; simp
    · by_cases h2 : a ≤ c
      · have h3 : c - a = (c - (a + 1)) + 1 := by omega
        rw [h3, List.getElem?_cons_succ]
        grind
      · grind

/-- Every cell a sequence write lists is new, inside the written range, or old. -/
theorem Memory.mem_writeAll (bs : List Byte) :
    ∀ {m : Memory} {a : Nat} {c : Host.Cell}, c ∈ Memory.writeAll m a bs → c.1 < a + bs.length ∨ c ∈ m := by
  induction bs with
  | nil => intro m a c h; exact .inr h
  | cons b bs ih =>
    intro m a c h
    rcases ih h with h | h
    · left; simp only [List.length_cons]; omega
    · rcases Memory.mem_write h with rfl | h
      · left; simp only [List.length_cons]; omega
      · exact .inr h

/-- `load` depends only on the bytes in its range. -/
theorem Memory.load_congr {m m' : Memory} (n : Nat) :
    ∀ {a : Nat}, (∀ c, a ≤ c → c < a + n → Memory.read m c = Memory.read m' c) →
      Memory.load m a n = Memory.load m' a n := by
  induction n with
  | zero => intro a _; rfl
  | succ n ih =>
    intro a h
    simp only [Memory.load]
    rw [h a (by omega) (by omega), ih (fun c h1 h2 => h c (by omega) (by omega))]

/-- `load` answers exactly the bytes that are there. -/
theorem Memory.load_eq_some_iff (m : Memory) (n : Nat) :
    ∀ (a : Nat) (bs : List Byte), Memory.load m a n = some bs ↔
      bs.length = n ∧ ∀ i, i < n → Memory.read m (a + i) = bs[i]? := by
  induction n with
  | zero =>
    intro a bs
    simp only [Memory.load, Option.some.injEq]
    constructor
    · rintro rfl; simp
    · rintro ⟨h, -⟩; exact (List.length_eq_zero_iff.mp h).symm
  | succ n ih =>
    intro a bs
    simp only [Memory.load]
    constructor
    · intro h
      split at h
      · rename_i b bs' hb hbs
        cases h
        obtain ⟨hl, hr⟩ := (ih _ _).mp hbs
        refine ⟨by simp [hl], ?_⟩
        rintro (_ | i) hi
        · simpa using hb
        · have := hr i (by omega)
          rw [show a + (i + 1) = a + 1 + i by omega, this]
          simp
      · cases h
    · rintro ⟨hl, hr⟩
      cases bs with
      | nil => simp at hl
      | cons b bs =>
        have h0 := hr 0 (by omega)
        simp only [Nat.add_zero, List.getElem?_cons_zero] at h0
        have hrest : Memory.load m (a + 1) n = some bs := by
          refine (ih _ _).mpr ⟨by simpa using hl, fun i hi => ?_⟩
          have := hr (i + 1) (by omega)
          rw [show a + 1 + i = a + (i + 1) by omega, this]
          simp
        rw [h0, hrest]

/-- Loading one byte more. -/
theorem Memory.load_succ_end (m : Memory) (n : Nat) (a : Nat) (bs : List Byte) (b : Byte)
    (h : Memory.load m a n = some bs) (hb : Memory.read m (a + n) = some b) :
    Memory.load m a (n + 1) = some (bs ++ [b]) := by
  obtain ⟨hl, hr⟩ := (Memory.load_eq_some_iff m n a bs).mp h
  refine (Memory.load_eq_some_iff m (n + 1) a _).mpr ⟨by simp [hl], fun i hi => ?_⟩
  rcases Nat.lt_or_ge i n with h1 | h1
  · rw [hr i h1, List.getElem?_append_left (by omega)]
  · have : i = n := by omega
    subst this
    rw [hb, List.getElem?_append_right (by omega)]
    simp [hl]

end Sys2Proof.Machine
end

