-- ==== Sys2Proof/Laws/Selector.lean ====
section
/-! SUPPORT. The selector byte gives back its port and its context. -/

namespace Sys2Proof

theorem portOfCode_portCode (p : Port) : portOfCode (portCode p) = some p := by
  cases p <;> rfl

theorem portCode_le (p : Port) : portCode p ≤ 8 := by
  cases p <;> decide

theorem selector_toNat {p : Port} {c : Nat} (h : c < 16) : (selector p c).toNat = 16 * portCode p + c := by
  have := portCode_le p
  simp only [selector, BitVec.toNat_ofNat]
  omega

theorem selector_context {p : Port} {c : Nat} (h : c < 16) : (selector p c).toNat % 16 = c := by
  rw [selector_toNat h]; omega

theorem selector_port {p : Port} {c : Nat} (h : c < 16) : portOfCode ((selector p c).toNat / 16) = some p := by
  rw [selector_toNat h, show (16 * portCode p + c) / 16 = portCode p by omega, portOfCode_portCode]

theorem rxContext_lt (ph : Phase) (m : Mode) (full : Bool) : rxContext ph m full < 16 := by
  cases ph <;> cases m <;> cases full <;> decide

/-- The word of a received byte is read by `decodeRx`. -/
theorem decode_rxWord (ph : Phase) (m : Mode) (full : Bool) (b : Byte) :
    decode (rxWord ph m full b) = decodeRx (rxContext ph m full) b := by
  simp [rxWord, decode, selector_port (rxContext_lt ph m full), selector_context (rxContext_lt ph m full), noOperands]

theorem trackContext_lt (c : TrackCtx) : trackContext c < 16 := by
  rcases c with _ | n
  · decide
  · cases n <;> decide

end Sys2Proof
end

