-- ==== Sys2Proof/Laws/State.lean ====
section
/-! SUPPORT. One lemma per field per update of the state: what each shared operation leaves in each field. -/

namespace Sys2Proof.Machine

@[simp] theorem clearTracks_params (s : State) : (clearTracks s).params = s.params := rfl
@[simp] theorem clearTracks_phase (s : State) : (clearTracks s).phase = s.phase := rfl
@[simp] theorem clearTracks_mode (s : State) : (clearTracks s).mode = s.mode := rfl
@[simp] theorem clearTracks_buf (s : State) : (clearTracks s).buf = s.buf := rfl
@[simp] theorem clearTracks_len (s : State) : (clearTracks s).len = s.len := rfl
@[simp] theorem clearTracks_outcome (s : State) : (clearTracks s).outcome = s.outcome := rfl
@[simp] theorem clearTracks_trk1 (s : State) : (clearTracks s).trk1 = .absent := rfl
@[simp] theorem clearTracks_trk2 (s : State) : (clearTracks s).trk2 = .absent := rfl
@[simp] theorem clearTracks_trk3 (s : State) : (clearTracks s).trk3 = .absent := rfl
@[simp] theorem clearTracks_exp (s : State) : (clearTracks s).exp = s.exp := rfl
@[simp] theorem clearTracks_explen (s : State) : (clearTracks s).explen = s.explen := rfl
@[simp] theorem clearTracks_inputs (s : State) : (clearTracks s).inputs = s.inputs := rfl
@[simp] theorem clearTracks_tx (s : State) : (clearTracks s).tx = s.tx := rfl
@[simp] theorem clearTracks_scan (s : State) : (clearTracks s).scan = s.scan := rfl

@[simp] theorem append_params (b : Byte) (s : State) : (append b s).params = s.params := rfl
@[simp] theorem append_phase (b : Byte) (s : State) : (append b s).phase = s.phase := rfl
@[simp] theorem append_mode (b : Byte) (s : State) : (append b s).mode = s.mode := rfl
@[simp] theorem append_buf (b : Byte) (s : State) : (append b s).buf = Memory.write s.buf s.len b := rfl
@[simp] theorem append_len (b : Byte) (s : State) : (append b s).len = s.len + 1 := rfl
@[simp] theorem append_outcome (b : Byte) (s : State) : (append b s).outcome = s.outcome := rfl
@[simp] theorem append_trk1 (b : Byte) (s : State) : (append b s).trk1 = s.trk1 := rfl
@[simp] theorem append_trk2 (b : Byte) (s : State) : (append b s).trk2 = s.trk2 := rfl
@[simp] theorem append_trk3 (b : Byte) (s : State) : (append b s).trk3 = s.trk3 := rfl
@[simp] theorem append_exp (b : Byte) (s : State) : (append b s).exp = s.exp := rfl
@[simp] theorem append_explen (b : Byte) (s : State) : (append b s).explen = s.explen := rfl
@[simp] theorem append_inputs (b : Byte) (s : State) : (append b s).inputs = s.inputs := rfl
@[simp] theorem append_tx (b : Byte) (s : State) : (append b s).tx = s.tx := rfl
@[simp] theorem append_scan (b : Byte) (s : State) : (append b s).scan = s.scan := rfl

@[simp] theorem finish_params (c : ResultCode) (k : Keep) (s : State) : (finish c k s).params = s.params := rfl
@[simp] theorem finish_phase (c : ResultCode) (k : Keep) (s : State) : (finish c k s).phase = .idle := rfl
@[simp] theorem finish_mode (c : ResultCode) (k : Keep) (s : State) : (finish c k s).mode = s.mode := rfl
@[simp] theorem finish_buf (c : ResultCode) (k : Keep) (s : State) : (finish c k s).buf = s.buf := rfl
@[simp] theorem finish_len (c : ResultCode) (k : Keep) (s : State) : (finish c k s).len = if k = .discard then 0 else s.len := rfl
@[simp] theorem finish_outcome (c : ResultCode) (k : Keep) (s : State) : (finish c k s).outcome = c := rfl
@[simp] theorem finish_trk1 (c : ResultCode) (k : Keep) (s : State) : (finish c k s).trk1 = if c = .frame then s.trk1 else .absent := rfl
@[simp] theorem finish_trk2 (c : ResultCode) (k : Keep) (s : State) : (finish c k s).trk2 = if c = .frame then s.trk2 else .absent := rfl
@[simp] theorem finish_trk3 (c : ResultCode) (k : Keep) (s : State) : (finish c k s).trk3 = if c = .frame then s.trk3 else .absent := rfl
@[simp] theorem finish_exp (c : ResultCode) (k : Keep) (s : State) : (finish c k s).exp = s.exp := rfl
@[simp] theorem finish_explen (c : ResultCode) (k : Keep) (s : State) : (finish c k s).explen = s.explen := rfl
@[simp] theorem finish_inputs (c : ResultCode) (k : Keep) (s : State) : (finish c k s).inputs = s.inputs := rfl
@[simp] theorem finish_tx (c : ResultCode) (k : Keep) (s : State) : (finish c k s).tx = s.tx := rfl
@[simp] theorem finish_scan (c : ResultCode) (k : Keep) (s : State) : (finish c k s).scan = s.scan := rfl

@[simp] theorem beginCommand_params (m : Mode) (s : State) : (beginCommand m s).params = s.params := rfl
@[simp] theorem beginCommand_phase (m : Mode) (s : State) : (beginCommand m s).phase = s.phase := rfl
@[simp] theorem beginCommand_mode (m : Mode) (s : State) : (beginCommand m s).mode = m := rfl
@[simp] theorem beginCommand_buf (m : Mode) (s : State) : (beginCommand m s).buf = s.buf := rfl
@[simp] theorem beginCommand_len (m : Mode) (s : State) : (beginCommand m s).len = 0 := rfl
@[simp] theorem beginCommand_outcome (m : Mode) (s : State) : (beginCommand m s).outcome = .none := rfl
@[simp] theorem beginCommand_trk1 (m : Mode) (s : State) : (beginCommand m s).trk1 = .absent := rfl
@[simp] theorem beginCommand_trk2 (m : Mode) (s : State) : (beginCommand m s).trk2 = .absent := rfl
@[simp] theorem beginCommand_trk3 (m : Mode) (s : State) : (beginCommand m s).trk3 = .absent := rfl
@[simp] theorem beginCommand_exp (m : Mode) (s : State) : (beginCommand m s).exp = s.exp := rfl
@[simp] theorem beginCommand_explen (m : Mode) (s : State) : (beginCommand m s).explen = s.explen := rfl
@[simp] theorem beginCommand_inputs (m : Mode) (s : State) : (beginCommand m s).inputs = s.inputs := rfl
@[simp] theorem beginCommand_tx (m : Mode) (s : State) : (beginCommand m s).tx = s.tx := rfl
@[simp] theorem beginCommand_scan (m : Mode) (s : State) : (beginCommand m s).scan = s.scan := rfl

@[simp] theorem resetState_params (s : State) : (resetState s).params = s.params := rfl
@[simp] theorem resetState_phase (s : State) : (resetState s).phase = .idle := rfl
@[simp] theorem resetState_mode (s : State) : (resetState s).mode = .read := rfl
@[simp] theorem resetState_buf (s : State) : (resetState s).buf = [] := rfl
@[simp] theorem resetState_len (s : State) : (resetState s).len = 0 := rfl
@[simp] theorem resetState_outcome (s : State) : (resetState s).outcome = .none := rfl
@[simp] theorem resetState_trk1 (s : State) : (resetState s).trk1 = .absent := rfl
@[simp] theorem resetState_trk2 (s : State) : (resetState s).trk2 = .absent := rfl
@[simp] theorem resetState_trk3 (s : State) : (resetState s).trk3 = .absent := rfl
@[simp] theorem resetState_exp (s : State) : (resetState s).exp = [] := rfl
@[simp] theorem resetState_explen (s : State) : (resetState s).explen = 0 := rfl
@[simp] theorem resetState_inputs (s : State) : (resetState s).inputs = s.inputs := rfl
@[simp] theorem resetState_tx (s : State) : (resetState s).tx = s.tx := rfl
@[simp] theorem resetState_scan (s : State) : (resetState s).scan = Scan.init := rfl

@[simp] theorem storeTracks_params (r : TrackRec × TrackRec × TrackRec) (s : State) : (storeTracks r s).params = s.params := rfl
@[simp] theorem storeTracks_phase (r : TrackRec × TrackRec × TrackRec) (s : State) : (storeTracks r s).phase = s.phase := rfl
@[simp] theorem storeTracks_mode (r : TrackRec × TrackRec × TrackRec) (s : State) : (storeTracks r s).mode = s.mode := rfl
@[simp] theorem storeTracks_buf (r : TrackRec × TrackRec × TrackRec) (s : State) : (storeTracks r s).buf = s.buf := rfl
@[simp] theorem storeTracks_len (r : TrackRec × TrackRec × TrackRec) (s : State) : (storeTracks r s).len = s.len := rfl
@[simp] theorem storeTracks_outcome (r : TrackRec × TrackRec × TrackRec) (s : State) : (storeTracks r s).outcome = s.outcome := rfl
@[simp] theorem storeTracks_trk1 (r : TrackRec × TrackRec × TrackRec) (s : State) : (storeTracks r s).trk1 = r.1 := rfl
@[simp] theorem storeTracks_trk2 (r : TrackRec × TrackRec × TrackRec) (s : State) : (storeTracks r s).trk2 = r.2.1 := rfl
@[simp] theorem storeTracks_trk3 (r : TrackRec × TrackRec × TrackRec) (s : State) : (storeTracks r s).trk3 = r.2.2 := rfl
@[simp] theorem storeTracks_exp (r : TrackRec × TrackRec × TrackRec) (s : State) : (storeTracks r s).exp = s.exp := rfl
@[simp] theorem storeTracks_explen (r : TrackRec × TrackRec × TrackRec) (s : State) : (storeTracks r s).explen = s.explen := rfl
@[simp] theorem storeTracks_inputs (r : TrackRec × TrackRec × TrackRec) (s : State) : (storeTracks r s).inputs = s.inputs := rfl
@[simp] theorem storeTracks_tx (r : TrackRec × TrackRec × TrackRec) (s : State) : (storeTracks r s).tx = s.tx := rfl
@[simp] theorem storeTracks_scan (r : TrackRec × TrackRec × TrackRec) (s : State) : (storeTracks r s).scan = s.scan := rfl

@[simp] theorem trackByte_params (b : Byte) (s : State) : (trackByte b s).params = s.params := rfl
@[simp] theorem trackByte_phase (b : Byte) (s : State) : (trackByte b s).phase = s.phase := rfl
@[simp] theorem trackByte_mode (b : Byte) (s : State) : (trackByte b s).mode = s.mode := rfl
@[simp] theorem trackByte_buf (b : Byte) (s : State) : (trackByte b s).buf = s.buf := rfl
@[simp] theorem trackByte_len (b : Byte) (s : State) : (trackByte b s).len = s.len := rfl
@[simp] theorem trackByte_outcome (b : Byte) (s : State) : (trackByte b s).outcome = s.outcome := rfl
@[simp] theorem trackByte_trk1 (b : Byte) (s : State) : (trackByte b s).trk1 = s.trk1 := rfl
@[simp] theorem trackByte_trk2 (b : Byte) (s : State) : (trackByte b s).trk2 = s.trk2 := rfl
@[simp] theorem trackByte_trk3 (b : Byte) (s : State) : (trackByte b s).trk3 = s.trk3 := rfl
@[simp] theorem trackByte_exp (b : Byte) (s : State) : (trackByte b s).exp = s.exp := rfl
@[simp] theorem trackByte_explen (b : Byte) (s : State) : (trackByte b s).explen = s.explen := rfl
@[simp] theorem trackByte_inputs (b : Byte) (s : State) : (trackByte b s).inputs = s.inputs := rfl
@[simp] theorem trackByte_tx (b : Byte) (s : State) : (trackByte b s).tx = s.tx := rfl
@[simp] theorem trackByte_scan (b : Byte) (s : State) : (trackByte b s).scan = s.scan.byte s.params b := rfl

@[simp] theorem transmit_params (bs : List Byte) (s : State) : (transmit bs s).params = s.params := rfl
@[simp] theorem transmit_phase (bs : List Byte) (s : State) : (transmit bs s).phase = s.phase := rfl
@[simp] theorem transmit_mode (bs : List Byte) (s : State) : (transmit bs s).mode = s.mode := rfl
@[simp] theorem transmit_buf (bs : List Byte) (s : State) : (transmit bs s).buf = s.buf := rfl
@[simp] theorem transmit_len (bs : List Byte) (s : State) : (transmit bs s).len = s.len := rfl
@[simp] theorem transmit_outcome (bs : List Byte) (s : State) : (transmit bs s).outcome = s.outcome := rfl
@[simp] theorem transmit_trk1 (bs : List Byte) (s : State) : (transmit bs s).trk1 = s.trk1 := rfl
@[simp] theorem transmit_trk2 (bs : List Byte) (s : State) : (transmit bs s).trk2 = s.trk2 := rfl
@[simp] theorem transmit_trk3 (bs : List Byte) (s : State) : (transmit bs s).trk3 = s.trk3 := rfl
@[simp] theorem transmit_exp (bs : List Byte) (s : State) : (transmit bs s).exp = s.exp := rfl
@[simp] theorem transmit_explen (bs : List Byte) (s : State) : (transmit bs s).explen = s.explen := rfl
@[simp] theorem transmit_inputs (bs : List Byte) (s : State) : (transmit bs s).inputs = s.inputs := rfl
@[simp] theorem transmit_tx (bs : List Byte) (s : State) : (transmit bs s).tx = s.tx ++ [bs] := rfl
@[simp] theorem transmit_scan (bs : List Byte) (s : State) : (transmit bs s).scan = s.scan := rfl

@[simp] theorem storeExpected_params (x : List Byte) (s : State) : (storeExpected x s).params = s.params := rfl
@[simp] theorem storeExpected_phase (x : List Byte) (s : State) : (storeExpected x s).phase = s.phase := rfl
@[simp] theorem storeExpected_mode (x : List Byte) (s : State) : (storeExpected x s).mode = s.mode := rfl
@[simp] theorem storeExpected_buf (x : List Byte) (s : State) : (storeExpected x s).buf = s.buf := rfl
@[simp] theorem storeExpected_len (x : List Byte) (s : State) : (storeExpected x s).len = s.len := rfl
@[simp] theorem storeExpected_outcome (x : List Byte) (s : State) : (storeExpected x s).outcome = s.outcome := rfl
@[simp] theorem storeExpected_trk1 (x : List Byte) (s : State) : (storeExpected x s).trk1 = s.trk1 := rfl
@[simp] theorem storeExpected_trk2 (x : List Byte) (s : State) : (storeExpected x s).trk2 = s.trk2 := rfl
@[simp] theorem storeExpected_trk3 (x : List Byte) (s : State) : (storeExpected x s).trk3 = s.trk3 := rfl
@[simp] theorem storeExpected_exp (x : List Byte) (s : State) : (storeExpected x s).exp = Memory.writeAll s.exp 0 x := rfl
@[simp] theorem storeExpected_explen (x : List Byte) (s : State) : (storeExpected x s).explen = x.length := rfl
@[simp] theorem storeExpected_inputs (x : List Byte) (s : State) : (storeExpected x s).inputs = s.inputs := rfl
@[simp] theorem storeExpected_tx (x : List Byte) (s : State) : (storeExpected x s).tx = s.tx := rfl
@[simp] theorem storeExpected_scan (x : List Byte) (s : State) : (storeExpected x s).scan = s.scan := rfl

@[simp] theorem openFrame_params (s : State) : (openFrame s).params = s.params := rfl
@[simp] theorem openFrame_phase (s : State) : (openFrame s).phase = .data := rfl
@[simp] theorem openFrame_mode (s : State) : (openFrame s).mode = s.mode := rfl
@[simp] theorem openFrame_buf (s : State) : (openFrame s).buf = s.buf := rfl
@[simp] theorem openFrame_len (s : State) : (openFrame s).len = 0 := rfl
@[simp] theorem openFrame_outcome (s : State) : (openFrame s).outcome = s.outcome := rfl
@[simp] theorem openFrame_trk1 (s : State) : (openFrame s).trk1 = s.trk1 := rfl
@[simp] theorem openFrame_trk2 (s : State) : (openFrame s).trk2 = s.trk2 := rfl
@[simp] theorem openFrame_trk3 (s : State) : (openFrame s).trk3 = s.trk3 := rfl
@[simp] theorem openFrame_exp (s : State) : (openFrame s).exp = s.exp := rfl
@[simp] theorem openFrame_explen (s : State) : (openFrame s).explen = s.explen := rfl
@[simp] theorem openFrame_inputs (s : State) : (openFrame s).inputs = s.inputs := rfl
@[simp] theorem openFrame_tx (s : State) : (openFrame s).tx = s.tx := rfl
@[simp] theorem openFrame_scan (s : State) : (openFrame s).scan = s.scan := rfl

@[simp] theorem startRead_params (s : State) : (startRead s).params = s.params := rfl
@[simp] theorem startRead_phase (s : State) : (startRead s).phase = .hunt := rfl
@[simp] theorem startRead_mode (s : State) : (startRead s).mode = .read := rfl
@[simp] theorem startRead_buf (s : State) : (startRead s).buf = s.buf := rfl
@[simp] theorem startRead_len (s : State) : (startRead s).len = 0 := rfl
@[simp] theorem startRead_outcome (s : State) : (startRead s).outcome = .none := rfl
@[simp] theorem startRead_trk1 (s : State) : (startRead s).trk1 = .absent := rfl
@[simp] theorem startRead_trk2 (s : State) : (startRead s).trk2 = .absent := rfl
@[simp] theorem startRead_trk3 (s : State) : (startRead s).trk3 = .absent := rfl
@[simp] theorem startRead_exp (s : State) : (startRead s).exp = s.exp := rfl
@[simp] theorem startRead_explen (s : State) : (startRead s).explen = s.explen := rfl
@[simp] theorem startRead_inputs (s : State) : (startRead s).inputs = s.inputs := rfl
@[simp] theorem startRead_tx (s : State) : (startRead s).tx = s.tx := rfl
@[simp] theorem startRead_scan (s : State) : (startRead s).scan = s.scan := rfl

end Sys2Proof.Machine
end

