-- ==== Sys2Proof/Laws/Operations.lean ====
section
/-! SUPPORT. What each shared operation can do, said once: the responses to a received byte, to ETX, to a write command; and each
row's meaning as the response to its event. -/

namespace Sys2Proof.Machine

/-- The ETX of a read frame ends the command with FRAME and the decode's tracks or with DECODE_FAULT and none; it stops only
where a payload byte was never written. -/
theorem endRead_spec (s : State) :
    (payload s = none ∧ endRead s = .fault .bufUnwritten) ∨
    (∃ pl, payload s = some pl ∧ decodeTracks s.params pl = none ∧
      endRead s = .next (finish .decodeFault .keep { s with scan := Scan.init })) ∨
    (∃ pl r, payload s = some pl ∧ decodeTracks s.params pl = some r ∧
      endRead s = .next (finish .frame .keep (storeTracks r { s with scan := Scan.init }))) := by
  unfold endRead
  cases hp : payload s with
  | none => exact .inl ⟨rfl, rfl⟩
  | some pl =>
    cases hd : decodeTracks s.params pl with
    | none => exact .inr (.inl ⟨pl, rfl, hd, by simp [hd]⟩)
    | some r => exact .inr (.inr ⟨pl, r, rfl, hd, by simp [hd]⟩)

/-- The ETX of an acknowledgment ends the command with ACK_OK or WRITE_FAILED; it stops only where a byte to be compared was
never written. -/
theorem endAck_spec (s : State) :
    (s.len ≠ s.explen ∧ endAck s = .next (finish .writeFailed .keep s)) ∨
    (s.len = s.explen ∧ payload s = none ∧ endAck s = .fault .bufUnwritten) ∨
    (s.len = s.explen ∧ (∃ pl, payload s = some pl) ∧ expected s = none ∧ endAck s = .fault .expUnwritten) ∨
    (s.len = s.explen ∧ ∃ pl x, payload s = some pl ∧ expected s = some x ∧
      endAck s = .next (finish (if pl = x then .ackOk else .writeFailed) .keep s)) := by
  unfold endAck
  by_cases h : s.len = s.explen
  · right
    rw [if_neg (not_not.mpr h)]
    cases hp : payload s with
    | none => exact .inl ⟨h, rfl, rfl⟩
    | some pl =>
      cases hx : expected s with
      | none => exact .inr (.inl ⟨h, ⟨pl, rfl⟩, rfl, rfl⟩)
      | some x =>
        refine .inr (.inr ⟨h, pl, x, rfl, rfl, ?_⟩)
        simp only [ackMatches]
        by_cases he : pl = x <;> simp [he]
  · exact .inl ⟨h, if_pos h⟩

/-- The write command in IDLE: refused when its text is too long, NO_DATA when the text trims to nothing, else stored, sent and
waiting for the acknowledgment. -/
theorem startWrite_spec (t : List Byte) (s : State) :
    (s.params.wtextMax < t.length ∧ startWrite t s = .refused .writeTextTooLong) ∨
    (t.length ≤ s.params.wtextMax ∧ trim t = [] ∧
      startWrite t s = .next (finish .noData .discard { beginCommand .ack s with explen := 0 })) ∨
    (t.length ≤ s.params.wtextMax ∧ trim t ≠ [] ∧
      startWrite t s = .next { transmit (writeFrames (trim t)) (storeExpected (trim t) (beginCommand .ack s)) with
        phase := .hunt }) := by
  unfold startWrite
  by_cases h : s.params.wtextMax < t.length
  · exact .inl ⟨h, if_pos h⟩
  · rw [if_neg h]
    by_cases hx : trim t = []
    · exact .inr (.inl ⟨by omega, hx, by simp [hx]⟩)
    · exact .inr (.inr ⟨by omega, hx, by simp [hx]⟩)

/-- A received byte in DATA. -/
theorem rxByteData_spec (b : Byte) (s : State) :
    (b = rawByte .ETX ∧ s.mode = .read ∧ rxByteData b s = endRead s) ∨
    (b = rawByte .ETX ∧ s.mode = .ack ∧ rxByteData b s = endAck s) ∨
    (b = rawByte .CR ∧ rxByteData b s = .next s) ∨
    (b ≠ rawByte .ETX ∧ b ≠ rawByte .CR ∧ s.params.payloadMax ≤ s.len ∧ rxByteData b s = .next (overflow s)) ∨
    (b ≠ rawByte .ETX ∧ b ≠ rawByte .CR ∧ s.len < s.params.payloadMax ∧ rxByteData b s = .next (append b s)) := by
  unfold rxByteData bufferFull
  by_cases h1 : b = rawByte .ETX
  · cases hm : s.mode <;> simp [h1]
  · by_cases h2 : b = rawByte .CR
    · exact .inr (.inr (.inl ⟨h2, by simp [h2, rawByte]⟩))
    · by_cases h3 : s.len < s.params.payloadMax
      · exact .inr (.inr (.inr (.inr ⟨h1, h2, h3, by simp [h1, h2, h3]⟩)))
      · exact .inr (.inr (.inr (.inl ⟨h1, h2, by omega, by simp [h1, h2, h3]⟩)))

/-- A received byte, by phase. -/
theorem rxByte_spec (b : Byte) (s : State) :
    (s.phase = .idle ∧ rxByte b s = .next s) ∨
    (s.phase = .hunt ∧ b = rawByte .STX ∧ rxByte b s = .next (openFrame s)) ∨
    (s.phase = .hunt ∧ b ≠ rawByte .STX ∧ rxByte b s = .next s) ∨
    (s.phase = .data ∧ rxByte b s = rxByteData b s) := by
  unfold rxByte
  cases hp : s.phase
  · simp
  · by_cases h : b = rawByte .STX <;> simp [h]
  · simp

/-- A full buffer: OVERFLOW in READ mode, WRITE_FAILED in ACK mode. -/
theorem overflow_spec (s : State) :
    overflow s = finish (if s.mode = .read then .overflow else .writeFailed) .discard s := by
  unfold overflow; cases s.mode <;> rfl

theorem cancelEvent_spec (s : State) :
    cancelEvent s = if s.phase = .idle then s else finish .stopped .discard s := by
  unfold cancelEvent; cases s.phase <;> rfl

theorem rxFaultEvent_spec (s : State) :
    rxFaultEvent s = if s.phase = .idle then s else finish .transportFault .discard s := by
  unfold rxFaultEvent; cases s.phase <;> rfl

theorem execRxStxHunt_eq (s : State) : execRxStxHunt s = rxByte (rawByte .STX) s := by
  unfold execRxStxHunt; split <;> simp_all [rxByte]

theorem execRxDiscardHunt_eq (b : Byte) (s : State) : execRxDiscardHunt b s = rxByte b s := by
  unfold execRxDiscardHunt; split <;> simp_all [rxByte]

theorem execRxCrData_eq (s : State) : execRxCrData s = rxByte (rawByte .CR) s := by
  unfold execRxCrData; split <;> simp_all [rxByte, rxByteData, rawByte]

theorem execRxEtxDataRead_eq (s : State) : execRxEtxDataRead s = rxByte (rawByte .ETX) s := by
  unfold execRxEtxDataRead; split <;> simp_all [rxByte, rxByteData]

theorem execRxEtxDataAck_eq (s : State) : execRxEtxDataAck s = rxByte (rawByte .ETX) s := by
  unfold execRxEtxDataAck; split <;> simp_all [rxByte, rxByteData]

theorem execRxStoreData_eq (b : Byte) (s : State) : execRxStoreData b s = rxByte b s := by
  unfold execRxStoreData; split <;> simp_all [rxByte, rxByteData]

theorem execRxOverflowData_eq (b : Byte) (s : State) : execRxOverflowData b s = rxByte b s := by
  unfold execRxOverflowData; split <;> simp_all [rxByte, rxByteData]

theorem execRxIdle_eq (b : Byte) (s : State) : execRxIdle b s = rxByte b s := by
  unfold execRxIdle; split <;> simp_all [rxByte]

/-- The row that a received byte's word decodes to, in whatever state it is run, is the response to that byte. -/
theorem exec_of_decode_rxWord {ph : Phase} {m : Mode} {full : Bool} {b : Byte} {i : Instr} (s : State)
    (h : decode (rxWord ph m full b) = .ok i) : exec i s = rxByte b s := by
  rw [decode_rxWord] at h
  cases ph with
  | idle => cases m <;> cases full <;> cases h <;> exact execRxIdle_eq b s
  | hunt =>
    have hd : decodeRx (rxContext .hunt m full) b = if b = rawByte .STX then .ok .rxStxHunt else .ok (.rxDiscardHunt b) := by
      cases m <;> cases full <;> rfl
    rw [hd] at h
    split at h <;> cases h
    · subst b; exact execRxStxHunt_eq s
    · exact execRxDiscardHunt_eq b s
  | data =>
    have hd : decodeRx (rxContext .data m full) b =
        if b = rawByte .ETX then .ok (if m = .read then .rxEtxDataRead else .rxEtxDataAck)
        else if b = rawByte .CR then .ok .rxCrData
        else .ok (if full = true then .rxOverflowData b else .rxStoreData b) := by
      cases m <;> cases full <;> rfl
    rw [hd] at h
    split at h
    · subst b
      cases m <;> cases h
      · exact execRxEtxDataRead_eq s
      · exact execRxEtxDataAck_eq s
    · split at h
      · subst b; cases h; exact execRxCrData_eq s
      · cases full <;> cases h
        · exact execRxStoreData_eq b s
        · exact execRxOverflowData_eq b s

/-- The transmit port loses, doubles and reorders nothing: what is accepted, then what is left, is the action. -/
theorem txAccepted_append_txRest (rs : List Bool) :
    ∀ bytes : List Byte, txAccepted rs bytes ++ txRest rs bytes = bytes := by
  induction rs with
  | nil => intro bytes; rfl
  | cons ready rs ih =>
    intro bytes
    cases ready
    · exact ih bytes
    · simp only [txAccepted, txRest, if_true, List.append_assoc, ih, List.take_append_drop]

/-- As many accepted transfers as there are bytes, whatever the waits between them, leave nothing. -/
theorem txRest_of_enough (rs : List Bool) :
    ∀ bytes : List Byte, bytes.length ≤ rs.count true → txRest rs bytes = [] := by
  induction rs with
  | nil => intro bytes h; simpa [txRest] using h
  | cons ready rs ih =>
    intro bytes h
    cases ready
    · exact ih bytes (by simpa using h)
    · refine ih _ ?_
      simp only [List.count_cons_self] at h
      simp only [if_true, List.length_drop]
      omega

/-- Between steps nothing is outstanding. -/
@[simp] theorem txOutstanding_eq_nil (s : State) : txOutstanding s = [] := by
  unfold txOutstanding
  split
  · rfl
  · exact txRest_of_enough _ _ (by simp)

@[simp] theorem txValid_eq_false (s : State) : txValid s = false := by
  simp [txValid]

theorem execCancelIdle_eq (s : State) : execCancelIdle s = .next (cancelEvent s) := by
  unfold execCancelIdle; split <;> simp_all [cancelEvent]

end Sys2Proof.Machine
end

