-- ==== Sys2Proof/Laws/Effects.lean ====
section
/-! SUPPORT. What a row can do, said once: every next state `exec` can answer, with the conditions it takes. Later proofs about all
rows go by the cases of `ExecEffect` and unfold no meaning. -/

namespace Sys2Proof.Machine

/-- `ExecEffect i s t`: the ways row `i` can take `s` to `t`. -/
inductive ExecEffect : Instr → State → State → Prop where
  /-- The row has no effect. -/
  | stays {i s} : ExecEffect i s s
  /-- An STX in HUNT. -/
  | opened {i s} : isReceiveRow i = true → s.phase = .hunt → ExecEffect i s (openFrame s)
  /-- A byte stored. -/
  | stored {i s} (b : Byte) : isReceiveRow i = true → s.phase = .data → b ≠ rawByte .ETX → b ≠ rawByte .CR →
      s.len < s.params.payloadMax → ExecEffect i s (append b s)
  /-- A byte and no room for it. -/
  | overflowed {i s} : isReceiveRow i = true → s.phase = .data → s.params.payloadMax ≤ s.len →
      ExecEffect i s (finish (if s.mode = .read then .overflow else .writeFailed) .discard s)
  /-- The ETX of a read frame whose decode faults. -/
  | decodeFaulted {i s} (pl : List Byte) : isReceiveRow i = true → s.phase = .data → s.mode = .read →
      payload s = some pl → decodeTracks s.params pl = none →
      ExecEffect i s (finish .decodeFault .keep { s with scan := Scan.init })
  /-- The ETX of a read frame. -/
  | framed {i s} (pl : List Byte) (r : TrackRec × TrackRec × TrackRec) : isReceiveRow i = true → s.phase = .data →
      s.mode = .read → payload s = some pl → decodeTracks s.params pl = some r →
      ExecEffect i s (finish .frame .keep (storeTracks r { s with scan := Scan.init }))
  /-- The ETX of an acknowledgment of another length. -/
  | lengthDiffers {i s} : isReceiveRow i = true → s.phase = .data → s.mode = .ack → s.len ≠ s.explen →
      ExecEffect i s (finish .writeFailed .keep s)
  /-- The ETX of an acknowledgment of the right length. -/
  | compared {i s} (pl x : List Byte) : isReceiveRow i = true → s.phase = .data → s.mode = .ack → s.len = s.explen →
      payload s = some pl → expected s = some x →
      ExecEffect i s (finish (if pl = x then .ackOk else .writeFailed) .keep s)
  /-- A failed read. -/
  | transportFailed {i s} : isReceiveRow i = true → s.phase ≠ .idle → ExecEffect i s (finish .transportFault .discard s)
  /-- A cancel. -/
  | stopped {i s} : i = .cancel ∨ i = .cancelIdle → s.phase ≠ .idle → ExecEffect i s (finish .stopped .discard s)
  /-- A read command. -/
  | readStarted {i s} : i = .cmdRead ∨ i = .cmdWhileBusy .read → s.phase = .idle → ExecEffect i s (startRead s)
  /-- A write command with nothing to write. -/
  | noData {i s} (t : List Byte) : i = .cmdWrite t ∨ i = .cmdWhileBusy (.write t) → s.phase = .idle →
      t.length ≤ s.params.wtextMax → trim t = [] →
      ExecEffect i s (finish .noData .discard { beginCommand .ack s with explen := 0 })
  /-- A write command. -/
  | writeStarted {i s} (t : List Byte) : i = .cmdWrite t ∨ i = .cmdWhileBusy (.write t) → s.phase = .idle →
      t.length ≤ s.params.wtextMax → trim t ≠ [] →
      ExecEffect i s { transmit (writeFrames (trim t)) (storeExpected (trim t) (beginCommand .ack s)) with phase := .hunt }
  /-- OP_RAW_WRITE. -/
  | sent {s} (x : List Byte) : expected s = some x → x ≠ [] → ExecEffect .opRawWrite s (transmit (writeFrames x) s)
  /-- A track-layer row: the model's scan registers only. -/
  | scanned {i s} (b : Byte) : isTrackRow i = true → ExecEffect i s (trackByte b s)
  /-- RESET. -/
  | resetDone {s} : ExecEffect .reset s (resetState s)

theorem effect_of_endRead {i : Instr} {s t : State} (hi : isReceiveRow i = true) (hp : s.phase = .data) (hm : s.mode = .read)
    (h : endRead s = .next t) : ExecEffect i s t := by
  rcases endRead_spec s with ⟨_, he⟩ | ⟨pl, h1, h2, he⟩ | ⟨pl, r, h1, h2, he⟩ <;> rw [he] at h <;> cases h
  · exact .decodeFaulted pl hi hp hm h1 h2
  · exact .framed pl r hi hp hm h1 h2

theorem effect_of_endAck {i : Instr} {s t : State} (hi : isReceiveRow i = true) (hp : s.phase = .data) (hm : s.mode = .ack)
    (h : endAck s = .next t) : ExecEffect i s t := by
  rcases endAck_spec s with ⟨h1, he⟩ | ⟨_, _, he⟩ | ⟨_, _, _, he⟩ | ⟨h1, pl, x, h2, h3, he⟩ <;> rw [he] at h <;> cases h
  · exact .lengthDiffers hi hp hm h1
  · exact .compared pl x hi hp hm h1 h2 h3

theorem effect_of_rxByte {i : Instr} {s t : State} {b : Byte} (hi : isReceiveRow i = true)
    (h : rxByte b s = .next t) : ExecEffect i s t := by
  rcases rxByte_spec b s with ⟨_, he⟩ | ⟨hp, _, he⟩ | ⟨_, _, he⟩ | ⟨hp, he⟩ <;> rw [he] at h
  · cases h; exact .stays
  · cases h; exact .opened hi hp
  · cases h; exact .stays
  · rcases rxByteData_spec b s with ⟨_, hm, hd⟩ | ⟨_, hm, hd⟩ | ⟨_, hd⟩ | ⟨_, _, hl, hd⟩ | ⟨h1, h2, hl, hd⟩ <;> rw [hd] at h
    · exact effect_of_endRead hi hp hm h
    · exact effect_of_endAck hi hp hm h
    · cases h; exact .stays
    · rw [overflow_spec] at h; cases h; exact .overflowed hi hp hl
    · cases h; exact .stored b hi hp h1 h2 hl

theorem effect_of_startWrite {i : Instr} {s u : State} {t : List Byte} (hi : i = .cmdWrite t ∨ i = .cmdWhileBusy (.write t))
    (hp : s.phase = .idle) (h : startWrite t s = .next u) : ExecEffect i s u := by
  rcases startWrite_spec t s with ⟨_, he⟩ | ⟨h1, h2, he⟩ | ⟨h1, h2, he⟩ <;> rw [he] at h <;> cases h
  · exact .noData t hi hp h1 h2
  · exact .writeStarted t hi hp h1 h2

theorem effect_of_cancelEvent {i : Instr} {s : State} (hi : i = .cancel ∨ i = .cancelIdle) :
    ExecEffect i s (cancelEvent s) := by
  rw [cancelEvent_spec]
  split
  · exact .stays
  · exact .stopped hi ‹_›

/-- Every next state of `exec` is one of the effects. -/
theorem exec_effect {i : Instr} {s t : State} (h : exec i s = .next t) : ExecEffect i s t := by
  cases i with
  | rxStxHunt => exact effect_of_rxByte rfl ((execRxStxHunt_eq s).symm.trans h)
  | rxDiscardHunt b => exact effect_of_rxByte rfl ((execRxDiscardHunt_eq b s).symm.trans h)
  | rxCrData => exact effect_of_rxByte rfl ((execRxCrData_eq s).symm.trans h)
  | rxEtxDataRead => exact effect_of_rxByte rfl ((execRxEtxDataRead_eq s).symm.trans h)
  | rxEtxDataAck => exact effect_of_rxByte rfl ((execRxEtxDataAck_eq s).symm.trans h)
  | rxStoreData b => exact effect_of_rxByte rfl ((execRxStoreData_eq b s).symm.trans h)
  | rxOverflowData b => exact effect_of_rxByte rfl ((execRxOverflowData_eq b s).symm.trans h)
  | rxIdle b => exact effect_of_rxByte rfl ((execRxIdle_eq b s).symm.trans h)
  | rxFault =>
    cases h
    rw [rxFaultEvent_spec]
    split
    · exact .stays
    · exact .transportFailed rfl ‹_›
  | stx => cases h; exact .stays
  | etx => cases h; exact .stays
  | cr => cases h; exact .stays
  | t1Start => cases h; exact .scanned _ rfl
  | t1Sep => cases h; exact .scanned _ rfl
  | t1End => cases h; exact .scanned _ rfl
  | t2Start => cases h; exact .scanned _ rfl
  | t2Sep => cases h; exact .scanned _ rfl
  | t2End => cases h; exact .scanned _ rfl
  | t3Start => cases h; exact .scanned _ rfl
  | t3Sep => cases h; exact .scanned _ rfl
  | t3End => cases h; exact .scanned _ rfl
  | trkNonascii n b => cases h; exact .scanned _ rfl
  | trkFieldData c b => cases h; exact .scanned _ rfl
  | opRawWrite =>
    simp only [exec, execOpRawWrite] at h
    split at h
    · cases h
    · split at h
      · cases h; exact .stays
      · cases h; exact .sent _ ‹_› ‹_›
  | cmdNone => cases h; exact .stays
  | cmdRead =>
    simp only [exec, execCmdRead] at h
    split at h <;> cases h
    · exact .readStarted (.inl rfl) ‹_›
    · exact .stays
  | cmdWrite x =>
    simp only [exec, execCmdWrite] at h
    split at h
    · exact effect_of_startWrite (.inl rfl) ‹_› h
    · cases h; exact .stays
  | cmdReserved => cases h; exact .stays
  | cmdWhileBusy c =>
    simp only [exec, execCmdWhileBusy] at h
    split at h
    · cases c with
      | read => cases h; exact .readStarted (.inr rfl) ‹_›
      | write x => exact effect_of_startWrite (.inr rfl) ‹_› h
    · cases h; exact .stays
  | cancel => cases h; exact effect_of_cancelEvent (.inl rfl)
  | cancelIdle => rw [exec, execCancelIdle_eq] at h; cases h; exact effect_of_cancelEvent (.inr rfl)
  | reset => cases h; exact .resetDone

/-- A step that answers a next state found nothing presented, or ran a row. -/
theorem step_effect {s t : State} (h : step s = .next t) :
    (s.inputs = [] ∧ t = s) ∨
    ∃ inp rest i, s.inputs = inp :: rest ∧ decode (fetchWord s inp) = .ok i ∧ ExecEffect i { s with inputs := rest } t := by
  unfold step at h
  split at h
  · cases h; exact .inl ⟨‹_›, rfl⟩
  · rename_i inp rest hi
    split at h
    · exact .inr ⟨inp, rest, _, hi, ‹_›, exec_effect h⟩
    · cases h

end Sys2Proof.Machine
end

