-- ==== Sys2Proof/Laws/PerInstr.lean ====
section
/-! SUPPORT. Per-instruction laws. TableMatch: the value byte of every row's encoding is what the `match` and `mask` columns of
spec/opcode_table.json ask, and none of the bytes its `excludes` column names. -/

namespace Sys2Proof.Laws.TableMatch

/-- The `match` and `mask` columns of each row of spec/opcode_table.json (a default row: mask 0). -/
def columns : Instr → Byte × Byte
  | .rxStxHunt => (0x02#8, 0xff#8)
  | .rxDiscardHunt _ => (0x00#8, 0x00#8)
  | .rxCrData => (0x15#8, 0xff#8)
  | .rxEtxDataRead => (0x03#8, 0xff#8)
  | .rxEtxDataAck => (0x03#8, 0xff#8)
  | .rxStoreData _ => (0x00#8, 0x00#8)
  | .rxOverflowData _ => (0x00#8, 0x00#8)
  | .rxIdle _ => (0x00#8, 0x00#8)
  | .rxFault => (0x01#8, 0x01#8)
  | .stx => (0x02#8, 0xff#8)
  | .etx => (0x03#8, 0xff#8)
  | .cr => (0x15#8, 0xff#8)
  | .t1Start => (0x25#8, 0xff#8)
  | .t1Sep => (0x5e#8, 0xff#8)
  | .t1End => (0x3f#8, 0xff#8)
  | .t2Start => (0x3b#8, 0xff#8)
  | .t2Sep => (0x3d#8, 0xff#8)
  | .t2End => (0x3f#8, 0xff#8)
  | .t3Start => (0x2b#8, 0xff#8)
  | .t3Sep => (0x24#8, 0xff#8)
  | .t3End => (0x3f#8, 0xff#8)
  | .trkNonascii _ _ => (0x80#8, 0x80#8)
  | .trkFieldData _ _ => (0x00#8, 0x00#8)
  | .opRawWrite => (0x60#8, 0xff#8)
  | .cmdNone => (0x00#8, 0x03#8)
  | .cmdRead => (0x01#8, 0x03#8)
  | .cmdWrite _ => (0x02#8, 0x03#8)
  | .cmdReserved => (0x03#8, 0x03#8)
  | .cmdWhileBusy .read => (0x01#8, 0x03#8)
  | .cmdWhileBusy (.write _) => (0x02#8, 0x03#8)
  | .cancel => (0x01#8, 0x01#8)
  | .cancelIdle => (0x01#8, 0x01#8)
  | .reset => (0x01#8, 0x01#8)

/-- The `excludes` column of each row. -/
def excludes : Instr → List Byte
  | .rxStxHunt => []
  | .rxDiscardHunt _ => [0x02#8]
  | .rxCrData => []
  | .rxEtxDataRead => []
  | .rxEtxDataAck => []
  | .rxStoreData _ => [0x03#8, 0x15#8]
  | .rxOverflowData _ => [0x03#8, 0x15#8]
  | .rxIdle _ => []
  | .rxFault => []
  | .stx => []
  | .etx => []
  | .cr => []
  | .t1Start => []
  | .t1Sep => []
  | .t1End => []
  | .t2Start => []
  | .t2Sep => []
  | .t2End => []
  | .t3Start => []
  | .t3Sep => []
  | .t3End => []
  | .trkNonascii _ _ => []
  | .trkFieldData _ _ => []
  | .opRawWrite => []
  | .cmdNone => []
  | .cmdRead => []
  | .cmdWrite _ => []
  | .cmdReserved => []
  | .cmdWhileBusy _ => []
  | .cancel => []
  | .cancelIdle => []
  | .reset => []

/-- The value byte of a well-formed row's encoding matches its row of the table. -/
def Statement (i : Instr) : Prop :=
  i.wellFormed = true → ∃ v ops, encode i = v :: ops ∧ v &&& (columns i).2 = (columns i).1 ∧ v ∉ excludes i

theorem byte_and_zero (b : Byte) : b &&& 0x00#8 = 0x00#8 := by simp

theorem nonascii_top_bit : ∀ b : Byte, Machine.isAscii b = false → b &&& 0x80#8 = 0x80#8 := by decide

theorem rxStxHunt : Statement .rxStxHunt := by
  intro _
  exact ⟨_, _, rfl, by decide, by simp [excludes]⟩

theorem rxDiscardHunt (b : Byte) : Statement (.rxDiscardHunt b) := by
  intro h
  refine ⟨_, _, rfl, byte_and_zero b, ?_⟩
  simpa [Instr.wellFormed, Machine.rawByte, excludes] using h

theorem rxCrData : Statement .rxCrData := by
  intro _
  exact ⟨_, _, rfl, by decide, by simp [excludes]⟩

theorem rxEtxDataRead : Statement .rxEtxDataRead := by
  intro _
  exact ⟨_, _, rfl, by decide, by simp [excludes]⟩

theorem rxEtxDataAck : Statement .rxEtxDataAck := by
  intro _
  exact ⟨_, _, rfl, by decide, by simp [excludes]⟩

theorem rxStoreData (b : Byte) : Statement (.rxStoreData b) := by
  intro h
  refine ⟨_, _, rfl, byte_and_zero b, ?_⟩
  simpa [Instr.wellFormed, Machine.rawByte, excludes] using h

theorem rxOverflowData (b : Byte) : Statement (.rxOverflowData b) := by
  intro h
  refine ⟨_, _, rfl, byte_and_zero b, ?_⟩
  simpa [Instr.wellFormed, Machine.rawByte, excludes] using h

theorem rxIdle (b : Byte) : Statement (.rxIdle b) := by
  intro _
  exact ⟨_, _, rfl, byte_and_zero b, by simp [excludes]⟩

theorem rxFault : Statement .rxFault := by
  intro _
  exact ⟨_, _, rfl, by decide, by simp [excludes]⟩

theorem stx : Statement .stx := by
  intro _
  exact ⟨_, _, rfl, by decide, by simp [excludes]⟩

theorem etx : Statement .etx := by
  intro _
  exact ⟨_, _, rfl, by decide, by simp [excludes]⟩

theorem cr : Statement .cr := by
  intro _
  exact ⟨_, _, rfl, by decide, by simp [excludes]⟩

theorem t1Start : Statement .t1Start := by
  intro _
  exact ⟨_, _, rfl, by decide, by simp [excludes]⟩

theorem t1Sep : Statement .t1Sep := by
  intro _
  exact ⟨_, _, rfl, by decide, by simp [excludes]⟩

theorem t1End : Statement .t1End := by
  intro _
  exact ⟨_, _, rfl, by decide, by simp [excludes]⟩

theorem t2Start : Statement .t2Start := by
  intro _
  exact ⟨_, _, rfl, by decide, by simp [excludes]⟩

theorem t2Sep : Statement .t2Sep := by
  intro _
  exact ⟨_, _, rfl, by decide, by simp [excludes]⟩

theorem t2End : Statement .t2End := by
  intro _
  exact ⟨_, _, rfl, by decide, by simp [excludes]⟩

theorem t3Start : Statement .t3Start := by
  intro _
  exact ⟨_, _, rfl, by decide, by simp [excludes]⟩

theorem t3Sep : Statement .t3Sep := by
  intro _
  exact ⟨_, _, rfl, by decide, by simp [excludes]⟩

theorem t3End : Statement .t3End := by
  intro _
  exact ⟨_, _, rfl, by decide, by simp [excludes]⟩

theorem trkNonascii (n : TrackNo) (b : Byte) : Statement (.trkNonascii n b) := by
  intro h
  exact ⟨_, _, rfl, nonascii_top_bit b (by simpa [Instr.wellFormed] using h), by simp [excludes]⟩

theorem trkFieldData (c : TrackCtx) (b : Byte) : Statement (.trkFieldData c b) := by
  intro _
  exact ⟨_, _, rfl, byte_and_zero b, by simp [excludes]⟩

theorem opRawWrite : Statement .opRawWrite := by
  intro _
  exact ⟨_, _, rfl, by decide, by simp [excludes]⟩

theorem cmdNone : Statement .cmdNone := by
  intro _
  exact ⟨_, _, rfl, by decide, by simp [excludes]⟩

theorem cmdRead : Statement .cmdRead := by
  intro _
  exact ⟨_, _, rfl, by decide, by simp [excludes]⟩

theorem cmdWrite (t : List Byte) : Statement (.cmdWrite t) := by
  intro _
  exact ⟨_, _, rfl, by simp [columns], by simp [excludes]⟩

theorem cmdReserved : Statement .cmdReserved := by
  intro _
  exact ⟨_, _, rfl, by decide, by simp [excludes]⟩

theorem cmdWhileBusy (c : BusyCmd) : Statement (.cmdWhileBusy c) := by
  intro _
  cases c <;> exact ⟨_, _, rfl, by simp [columns], by simp [excludes]⟩

theorem cancel : Statement .cancel := by
  intro _
  exact ⟨_, _, rfl, by decide, by simp [excludes]⟩

theorem cancelIdle : Statement .cancelIdle := by
  intro _
  exact ⟨_, _, rfl, by decide, by simp [excludes]⟩

theorem reset : Statement .reset := by
  intro _
  exact ⟨_, _, rfl, by decide, by simp [excludes]⟩

end Sys2Proof.Laws.TableMatch
end

