-- ==== Sys2Proof/Tests/Slice0.lean ====
section
/-! SUPPORT. The model's own tests: ill-formed terms refused, words written from spec/opcode_table.json decoded, single steps with
the values of 95_test_vectors.md (V numbers), and for each statement a state and operands that meet its hypotheses. -/

namespace Sys2Proof.Machine.Tests

/-! ### Small states -/

/-- A state with the payload `pl` received so far and the expected text `x`. -/
def mk (ph : Phase) (m : Mode) (pl x : List Byte) : State :=
  { State.reset with
    phase := ph
    mode := m
    buf := Memory.writeAll [] 0 pl
    len := pl.length
    exp := Memory.writeAll [] 0 x
    explen := x.length }

/-- The same with `PAYLOAD_MAX` = `WTEXT_MAX` = 4. -/
def small (s : State) : State :=
  { s with params := { s.params with payloadMax := 4, wtextMax := 4 } }

/-- A state whose scan stands at payload index `idx` in position `pos`. -/
def scanAt (pos : ScanPos) (idx : Nat) : State :=
  { State.reset with scan := { Scan.init with pos := pos, idx := idx } }

/-- The next state, if there is one. -/
def nextOf : Out → Option State
  | .next t => some t
  | .fault _ => none
  | .refused _ => none

/-- `;1?`, `;` 0xC8 `?`. -/
def goodPl : List Byte := [0x3B#8, 0x31#8, 0x3F#8]
def badPl : List Byte := [0x3B#8, 0xC8#8, 0x3F#8]
def abc : List Byte := [0x41#8, 0x42#8, 0x43#8]
/-- `"  ABC  "`. -/
def abcText : List Byte := [0x20#8, 0x20#8, 0x41#8, 0x42#8, 0x43#8, 0x20#8, 0x20#8]

/-! ### WellFormed: one ill-formed term for each check -/

theorem test_ill_discard : (Instr.rxDiscardHunt 0x02#8).wellFormed = false := by decide
theorem test_ill_store_etx : (Instr.rxStoreData 0x03#8).wellFormed = false := by decide
theorem test_ill_store_cr : (Instr.rxStoreData 0x15#8).wellFormed = false := by decide
theorem test_ill_overflow_etx : (Instr.rxOverflowData 0x03#8).wellFormed = false := by decide
theorem test_ill_overflow_cr : (Instr.rxOverflowData 0x15#8).wellFormed = false := by decide
theorem test_ill_nonascii : (Instr.trkNonascii .one 0x7F#8).wellFormed = false := by decide
theorem test_ill_field_starts :
    [0x25#8, 0x3B#8, 0x2B#8].map (fun b => (Instr.trkFieldData .outside b).wellFormed) = [false, false, false] := by decide
theorem test_ill_field_inside :
    [0x3D#8, 0x3F#8, 0x80#8].map (fun b => (Instr.trkFieldData (.inside .two) b).wellFormed) = [false, false, false] := by
  decide

/-! ### Decode: words written out from the table's match column, its format and its phase, mode and cond columns -/

theorem test_decode_receive :
    [[0x02#8, 0x11#8], [0x03#8, 0x11#8], [0x15#8, 0x12#8], [0x03#8, 0x12#8], [0x03#8, 0x16#8], [0x02#8, 0x12#8],
      [0x02#8, 0x1A#8], [0x02#8, 0x10#8], [0x01#8, 0x20#8]].map (fun w => (decode w).toOption) =
    [some .rxStxHunt, some (.rxDiscardHunt 0x03#8), some .rxCrData, some .rxEtxDataRead, some .rxEtxDataAck,
      some (.rxStoreData 0x02#8), some (.rxOverflowData 0x02#8), some (.rxIdle 0x02#8), some .rxFault] := by decide

theorem test_decode_constant :
    [[0x02#8, 0x30#8], [0x03#8, 0x30#8], [0x15#8, 0x30#8], [0x60#8, 0x50#8]].map (fun w => (decode w).toOption) =
    [some .stx, some .etx, some .cr, some .opRawWrite] := by decide

theorem test_decode_track :
    [[0x25#8, 0x40#8], [0x5E#8, 0x41#8], [0x3F#8, 0x41#8], [0x3B#8, 0x40#8], [0x3D#8, 0x42#8], [0x3F#8, 0x42#8],
      [0x2B#8, 0x40#8], [0x24#8, 0x43#8], [0x3F#8, 0x43#8], [0xC8#8, 0x42#8], [0x5E#8, 0x42#8]].map
      (fun w => (decode w).toOption) =
    [some .t1Start, some .t1Sep, some .t1End, some .t2Start, some .t2Sep, some .t2End, some .t3Start, some .t3Sep,
      some .t3End, some (.trkNonascii .two 0xC8#8), some (.trkFieldData (.inside .two) 0x5E#8)] := by decide

theorem test_decode_host :
    [[0x00#8, 0x60#8], [0x01#8, 0x60#8], [0x02#8, 0x60#8, 0x41#8], [0x03#8, 0x60#8], [0x01#8, 0x62#8],
      [0x02#8, 0x61#8, 0x41#8], [0x01#8, 0x71#8], [0x01#8, 0x70#8], [0x01#8, 0x80#8]].map (fun w => (decode w).toOption) =
    [some .cmdNone, some .cmdRead, some (.cmdWrite [0x41#8]), some .cmdReserved, some (.cmdWhileBusy .read),
      some (.cmdWhileBusy (.write [0x41#8])), some .cancel, some .cancelIdle, some .reset] := by decide

/-- A code of `phase` that does not exist, a `cmd` of more than two bits, an unknown port, a byte too many, no selector. -/
theorem test_decode_refuses :
    [[0x02#8, 0x13#8], [0x04#8, 0x60#8], [0x01#8, 0x90#8], [0x01#8, 0x20#8, 0x00#8], [0x01#8], []].map
      (fun w => (decode w).toOption) = [none, none, none, none, none, none] := by decide

/-- Bare table values: the first row that fixes the value, and CR by its 24 bits (log 6). -/
theorem test_table_words :
    decodeTableWord 8 0x02 = some .rxStxHunt ∧ decodeTableWord 8 0x25 = some .t1Start ∧
    decodeTableWord 8 0x60 = some .opRawWrite ∧ decodeTableWord 8 0x80 = some (.trkNonascii .one 0x80#8) ∧
    decodeTableWord 8 0x00 = some .cmdNone ∧ decodeTableWord 24 0x15 = some .cr := by decide

theorem test_with_fetch_word :
    (nextOf (step ((mk .hunt .read [] []).withFetchWord 8 0x02))).map (·.phase) = some .data ∧
    (nextOf (step (State.reset.withFetchWord 8 0x60))).map (·.tx) = some [] := by decide

/-- 00_scope.md R4, 10_state.md R21: no field has an address by default; a map gives the ones it names. -/
theorem test_bus_map :
    Params.default.busAddress .outcome = none ∧
    { Params.default with busMap := some [(.cmd, 0), (.trkLo .two, 8)] }.busAddress (.trkLo .two) = some 8 := by decide

/-- 42_write_protocol.md R114: a transport that waits twice takes two bytes, in order, in four cycles. -/
theorem test_tx_port :
    txAccepted [true, false, true, false] abc = [0x41#8, 0x42#8] ∧ txRest [true, false, true, false] abc = [0x43#8] := by decide

/-! ### Single steps (95_test_vectors.md) -/

/-- V40, first byte. -/
theorem test_stx_opens : (nextOf (exec .rxStxHunt (mk .hunt .read [] []))).map (·.phase) = some .data := by decide
/-- V42. -/
theorem test_etx_in_hunt : (nextOf (exec (.rxDiscardHunt 0x03#8) (mk .hunt .read [] []))).map (·.phase) = some .hunt := by
  decide
/-- V39, V48. -/
theorem test_cr_dropped : (nextOf (exec .rxCrData (small (mk .data .read (abc ++ [0x44#8]) [])))).map (·.len) = some 4 := by
  decide
/-- V43: an STX inside a frame is data. -/
theorem test_store_stx :
    (nextOf (exec (.rxStoreData 0x02#8) (mk .data .read [0x25#8] []))).map (fun t => (t.len, payload t)) =
      some (2, some [0x25#8, 0x02#8]) := by decide
/-- V47. -/
theorem test_overflow_read :
    (nextOf (exec (.rxOverflowData 0x45#8) (small (mk .data .read (abc ++ [0x44#8]) [])))).map (fun t => (t.outcome, t.len)) =
      some (.overflow, 0) := by decide
/-- V62. -/
theorem test_overflow_ack :
    (nextOf (exec (.rxOverflowData 0x45#8) (small (mk .data .ack (abc ++ [0x44#8]) [0x41#8])))).map (fun t => (t.outcome, t.phase)) =
      some (.writeFailed, .idle) := by decide
/-- V49. -/
theorem test_idle_byte : nextOf (exec (.rxIdle 0x02#8) State.reset) = some State.reset := by decide
/-- V45. -/
theorem test_fault_data :
    (nextOf (exec .rxFault (mk .data .read [0x3B#8, 0x31#8] []))).map (fun t => (t.outcome, t.phase, t.len)) =
      some (.transportFault, .idle, 0) := by decide

/-- V10. -/
theorem test_etx_two_tracks :
    (nextOf (exec .rxEtxDataRead (mk .data .read
      [0x3B#8, 0x31#8, 0x32#8, 0x3D#8, 0x33#8, 0x3F#8, 0x2B#8, 0x34#8, 0x24#8, 0x35#8, 0x3F#8] []))).map
      (fun t => ([t.trk1, t.trk2, t.trk3], trackFields t .two)) =
    some ([.absent, ⟨true, 1, 5, 2⟩, ⟨true, 7, 10, 2⟩], some [[0x31#8, 0x32#8], [0x33#8]]) := by decide
/-- V29: a clean first track is not delivered when the second faults. -/
theorem test_etx_decode_fault :
    (nextOf (exec .rxEtxDataRead (mk .data .read [0x25#8, 0x41#8, 0x3F#8, 0x3B#8, 0xC8#8, 0x3F#8] []))).map
      (fun t => (t.outcome, t.len, t.trk1)) = some (.decodeFault, 6, .absent) := by decide
/-- V13, V14, V16, V18, V22, V30, V31, V32: the decode alone. -/
theorem test_decode_vectors :
    [[0x25#8, 0x41#8, 0x42#8], [0x25#8, 0x3F#8], [0x3B#8, 0x3D#8, 0x31#8, 0x3D#8, 0x3D#8, 0x3F#8],
      [0x25#8, 0x41#8, 0x3F#8, 0x58#8, 0x3B#8, 0x31#8, 0x3F#8], [0x25#8, 0x41#8, 0x3F#8, 0x25#8, 0x42#8, 0x3F#8],
      [0x25#8, 0xC8#8], [0x25#8, 0x41#8, 0x3F#8, 0xC8#8], [0xC8#8]].map (decodeTracks Params.default) =
    [some (.absent, .absent, .absent), some (⟨true, 1, 1, 1⟩, .absent, .absent), some (.absent, ⟨true, 1, 5, 4⟩, .absent),
      some (⟨true, 1, 2, 1⟩, .absent, .absent), some (⟨true, 1, 2, 1⟩, .absent, .absent),
      some (.absent, .absent, .absent), some (⟨true, 1, 2, 1⟩, .absent, .absent), some (.absent, .absent, .absent)] := by decide
/-- V24 to V27: skip offsets. -/
theorem test_decode_skip :
    decodeTracks { Params.default with skip1 := 1 } [0x25#8, 0x42#8, 0x31#8, 0x32#8, 0x5E#8, 0x58#8, 0x3F#8] =
      some (⟨true, 2, 6, 2⟩, .absent, .absent) ∧
    decodeTracks { Params.default with skip1 := 1 } [0x25#8, 0x3F#8] = some (⟨true, 1, 1, 1⟩, .absent, .absent) ∧
    decodeTracks { Params.default with skip1 := 5 } [0x25#8, 0x41#8, 0x42#8, 0x3F#8, 0x3B#8, 0x31#8, 0x3F#8] =
      some (⟨true, 3, 3, 1⟩, ⟨true, 5, 6, 1⟩, .absent) ∧
    decodeTracks { Params.default with skip1 := 1 } [0x25#8, 0xC8#8, 0x41#8, 0x3F#8] =
      some (⟨true, 2, 3, 1⟩, .absent, .absent) := by decide

/-- V2, V50: the last step. -/
theorem test_ack :
    [abc, [0x41#8, 0x42#8, 0x44#8]].map (fun pl => (nextOf (exec .rxEtxDataAck (mk .data .ack pl abc))).map (·.outcome)) =
      [some .ackOk, some .writeFailed] := by decide
/-- V51, V53: another length. -/
theorem test_ack_length :
    [[0x41#8, 0x42#8], []].map (fun pl => (nextOf (exec .rxEtxDataAck (mk .data .ack pl abc))).map (fun t => (t.outcome, t.len))) =
      [some (.writeFailed, 2), some (.writeFailed, 0)] := by decide

theorem test_constants :
    [Instr.stx, .etx, .cr].map (fun i => nextOf (exec i State.reset)) =
      [some State.reset, some State.reset, some State.reset] := by decide

theorem test_starts :
    [Instr.t1Start, .t2Start, .t3Start].map (fun i => (nextOf (exec i (scanAt (.cursor .two) 5))).map (·.scan.pos)) =
      [some .residue, some (.body .two 5 1 false), some (.body .three 5 1 false)] := by decide
theorem test_seps :
    [(Instr.t1Sep, TrackNo.one), (.t2Sep, .two), (.t3Sep, .three), (.t1Sep, .two)].map
      (fun x => (nextOf (exec x.1 (scanAt (.body x.2 0 1 false) 4))).map (·.scan.pos)) =
      [some (.body .one 0 2 false), some (.body .two 0 2 false), some (.body .three 0 2 false), some (.body .two 0 1 false)] := by
  decide
theorem test_ends :
    [(Instr.t1End, TrackNo.one), (.t2End, .two), (.t3End, .three)].map
      (fun x => (nextOf (exec x.1 (scanAt (.body x.2 0 2 false) 4))).map (fun t => (t.scan.pos, t.scan.trk x.2))) =
      [some (.cursor .two, ⟨true, 1, 4, 2⟩), some (.cursor .three, ⟨true, 1, 4, 2⟩), some (.residue, ⟨true, 1, 4, 2⟩)] := by decide
theorem test_nonascii :
    (nextOf (exec (.trkNonascii .two 0xC8#8) (scanAt (.body .two 0 1 false) 1))).map (·.scan.pos) =
      some (.body .two 0 1 true) := by decide
theorem test_field_data :
    (nextOf (exec (.trkFieldData (.inside .two) 0x31#8) (scanAt (.body .two 0 1 false) 1))).map (·.scan.idx) = some 2 := by
  decide

/-- The frames of V2. -/
theorem test_op_raw_write :
    (nextOf (exec .opRawWrite (mk .idle .ack [] abc))).map (·.tx) =
      some [[0x02#8, 0x60#8, 0x03#8, 0x02#8, 0x41#8, 0x42#8, 0x43#8, 0x03#8]] := by decide
/-- V2. -/
theorem test_write :
    (nextOf (exec (.cmdWrite abcText) State.reset)).map (fun t => (t.tx, expected t, t.phase, t.mode)) =
      some ([[0x02#8, 0x60#8, 0x03#8, 0x02#8, 0x41#8, 0x42#8, 0x43#8, 0x03#8]], some abc, .hunt, .ack) := by decide
/-- V57. -/
theorem test_write_blank :
    (nextOf (exec (.cmdWrite [0x09#8, 0x0A#8, 0x20#8, 0x0D#8]) State.reset)).map (fun t => (t.tx, t.outcome, t.mode)) =
      some ([], .noData, .ack) := by decide
/-- V66: `exp` survives a read command. -/
theorem test_read :
    (nextOf (exec .cmdRead (mk .idle .ack abc abc))).map (fun t => (t.phase, t.mode, t.len, expected t)) =
      some (.hunt, .read, 0, some abc) := by decide
/-- V70. -/
theorem test_busy :
    [BusyCmd.read, .write [0x41#8]].map (fun c => nextOf (exec (.cmdWhileBusy c) (mk .data .read [0x41#8] []))) =
      [some (mk .data .read [0x41#8] []), some (mk .data .read [0x41#8] [])] := by decide
/-- V73. -/
theorem test_no_command :
    [Instr.cmdNone, .cmdReserved].map (fun i => nextOf (exec i State.reset)) = [some State.reset, some State.reset] := by decide
/-- V72. -/
theorem test_cancel :
    (nextOf (exec .cancel (mk .data .read [0x3B#8, 0x31#8] []))).map (fun t => (t.outcome, t.len, done t, okFlag t, errFlag t)) =
      some (.stopped, 0, true, false, false) := by decide
/-- V71. -/
theorem test_cancel_idle :
    (nextOf (exec .cancelIdle { State.reset with outcome := .frame })).map (·.outcome) = some .frame := by decide
/-- V74. -/
theorem test_reset : nextOf (exec .reset (mk .data .read [0x3B#8, 0x31#8] [])) = some State.reset := by decide

/-- V75, V76, V77: one cycle with two inputs. -/
theorem test_priority :
    (nextOf (step { mk .data .read [0x3B#8, 0x31#8] [] with
      inputs := [.cycle { Pins.quiet with cancel := true, rxValid := true, rxData := 0x03#8 }] })).map (·.outcome) =
        some .stopped ∧
    (nextOf (step { State.reset with
      outcome := .frame
      inputs := [.cycle { Pins.quiet with cancel := true, cmd := 1#2 }] })).map (fun t => (t.outcome, t.phase)) =
        some (.frame, .idle) ∧
    (nextOf (step { mk .data .read [] [] with
      inputs := [.cycle { Pins.quiet with rxValid := true, rxFault := true }] })).map (·.outcome) =
        some .transportFault := by decide

/-! ### Witnesses: a state and operands that meet the hypotheses of each statement, for each clause -/

theorem witness_StxInHuntOpensFrame : (mk .hunt .read [] []).phase = .hunt := by decide
/-- A cycle in which nothing but a byte is offered. -/
def bytePins : Pins := { Pins.quiet with rxValid := true, rxData := 0x15#8 }
theorem witness_OtherByteInHuntIsDiscarded :
    (mk .hunt .ack [] abc).phase = .hunt ∧ 0x03#8 ≠ 0x02#8 ∧
    bytePins.rst = false ∧ bytePins.cancel = false ∧ bytePins.rxFault = false ∧ bytePins.rxValid = true := by decide
theorem witness_CrInDataIsDropped :
    (mk .data .read abc []).phase = .data ∧
    bytePins.rst = false ∧ bytePins.cancel = false ∧ bytePins.rxFault = false ∧ bytePins.rxValid = true := by decide
theorem witness_EtxEndsReadFrame :
    (let s := mk .data .read goodPl []
     s.phase = .data ∧ s.mode = .read ∧ payload s = some goodPl ∧
       decodeTracks s.params goodPl = some (.absent, ⟨true, 1, 2, 1⟩, .absent)) ∧
    (let s := mk .data .read badPl []
     s.phase = .data ∧ s.mode = .read ∧ payload s = some badPl ∧ decodeTracks s.params badPl = none) := by decide
theorem witness_EtxComparesAcknowledgment :
    (let s := mk .data .ack abc abc
     s.phase = .data ∧ s.mode = .ack ∧ payload s = some abc ∧ expected s = some abc ∧
       s.len = s.explen ∧ ∀ i, i < s.len → Memory.read s.buf i = Memory.read s.exp i) ∧
    (let s := mk .data .ack goodPl abc
     s.phase = .data ∧ s.mode = .ack ∧ payload s = some goodPl ∧ expected s = some abc ∧
       ¬ (s.len = s.explen ∧ ∀ i, i < s.len → Memory.read s.buf i = Memory.read s.exp i)) ∧
    (let s := mk .data .ack [] abc
     s.phase = .data ∧ s.mode = .ack ∧ payload s = some [] ∧ expected s = some abc ∧
       ¬ (s.len = s.explen ∧ ∀ i, i < s.len → Memory.read s.buf i = Memory.read s.exp i)) := by decide
/-- The last free index. -/
theorem witness_DataByteIsStored :
    let s := small (mk .data .read abc [])
    s.phase = .data ∧ 0x02#8 ≠ 0x03#8 ∧ 0x02#8 ≠ 0x15#8 ∧ s.len < s.params.payloadMax ∧ s.len + 1 = s.params.payloadMax := by decide
theorem witness_FullBufferEndsCommand :
    (let s := small (mk .data .read (0x44#8 :: abc) [])
     s.phase = .data ∧ 0x02#8 ≠ 0x03#8 ∧ 0x02#8 ≠ 0x15#8 ∧ s.len = s.params.payloadMax ∧ s.mode = .read) ∧
    (let s := small (mk .data .ack (0x44#8 :: abc) abc)
     s.phase = .data ∧ 0x02#8 ≠ 0x03#8 ∧ 0x02#8 ≠ 0x15#8 ∧ s.len = s.params.payloadMax ∧ s.mode = .ack) := by decide
theorem witness_IdleTakesNoByte : State.reset.phase = .idle := by decide
theorem witness_FailedReadEndsCommand :
    (mk .hunt .ack [] abc).phase ≠ .idle ∧ (mk .data .read abc []).phase ≠ .idle ∧
    { bytePins with rxFault := true }.rxFault = true := by decide
theorem witness_ReceivedByteSelectsItsRow :
    State.reset.phase = .idle ∧ (mk .hunt .read [] []).phase = .hunt ∧
    ((mk .data .read [] []).phase = .data ∧ 0x03#8 = 0x03#8) ∧ ((mk .data .ack [] []).phase = .data ∧ 0x15#8 = 0x15#8) ∧
    (let s := small (mk .data .read abc [])
     s.phase = .data ∧ 0x02#8 ≠ 0x03#8 ∧ 0x02#8 ≠ 0x15#8 ∧ s.len < s.params.payloadMax) ∧
    (let s := small (mk .data .read (0x44#8 :: abc) [])
     s.phase = .data ∧ 0x02#8 ≠ 0x03#8 ∧ 0x02#8 ≠ 0x15#8 ∧ ¬ s.len < s.params.payloadMax) := by decide
/-- Bytes before the STX, a CR in the frame, a payload that fills the buffer; both modes. -/
theorem witness_ReceivedFrameIsItsPayload :
    (let s := small (mk .hunt .read [] [])
     s.phase = .hunt ∧ 0x02#8 ∉ [0x41#8, 0x03#8] ∧ 0x03#8 ∉ 0x15#8 :: 0x02#8 :: abc ∧
       (dropCr (0x15#8 :: 0x02#8 :: abc)).length = s.params.payloadMax ∧ s.mode = .read) ∧
    (let s := small (mk .hunt .ack [] abc)
     s.phase = .hunt ∧ 0x02#8 ∉ ([] : List Byte) ∧ 0x03#8 ∉ ([] : List Byte) ∧
       (dropCr []).length ≤ s.params.payloadMax ∧ s.mode = .ack) := by decide
theorem witness_ReceiveRowsWriteOnlyReceiveState :
    isReceiveRow .rxEtxDataRead = true ∧
    exec .rxEtxDataRead (mk .data .read [] []) = .next { mk .data .read [] [] with phase := .idle, outcome := .frame } :=
  ⟨rfl, rfl⟩
theorem witness_StoringEventsAreBounded :
    let s := small (mk .data .ack abc abc)
    s.phase = .data ∧ s.len ≤ s.params.payloadMax ∧ (∀ b ∈ [0x41#8, 0x02#8], b ≠ 0x03#8 ∧ b ≠ 0x15#8) ∧
      s.params.payloadMax < s.len + [0x41#8, 0x02#8].length := by decide
theorem witness_PresentTrackIsDelimited : extract 0 .two goodPl 0 = .present 1 2 1 3 := by decide
theorem witness_AbsentTrackKeepsCursor :
    extract 0 .one goodPl 0 = .absent 0 ∧ extract 0 .one [0x25#8, 0x41#8] 0 = .absent 0 ∧ extract 0 .three goodPl 3 = .absent 3 := by
  decide
theorem witness_SplitIsTheUniqueSegmentation :
    [[0x41#8], []] ≠ [] ∧ (∀ f ∈ [[0x41#8], []], 0x3D#8 ∉ f) ∧ [0x3D#8].intercalate [[0x41#8], []] = [0x41#8, 0x3D#8] := by decide
theorem witness_AnySubsetOfRecordsDecodes :
    recordLegal { Params.default with skip1 := 1 } .one (some ([0x42#8], [0x31#8, 0x5E#8])) ∧
    recordLegal { Params.default with skip1 := 1 } .two none ∧
    recordLegal { Params.default with skip1 := 1 } .three (some ([], [])) := by
  refine ⟨⟨rfl, ?_, ?_, ?_⟩, trivial, ⟨rfl, ?_, ?_, ?_⟩⟩ <;> decide
theorem witness_MissingEndByteHidesLaterTracks :
    [0x25#8, 0x3B#8][0]? = some (startByte .one) ∧ (∀ i, 0 ≤ i → [0x25#8, 0x3B#8][i]? ≠ some (endByte .one)) ∧
    TrackNo.one = .one ∧ 0 = 0 :=
  ⟨rfl, fun i _ h => by have := List.mem_of_getElem? h; revert this; decide, rfl, rfl⟩
theorem witness_AsciiPayloadNeverFaults : ∀ b ∈ [0x25#8, 0x7F#8, 0x00#8, 0x3F#8], isAscii b = true := by decide
theorem witness_StartByteOpensRecord :
    ((scanAt (.cursor .two) 5).scan.pos = .cursor .two ∧ trackNumber .two ≤ trackNumber .three) ∧
    ((scanAt (.cursor .two) 5).scan.pos = .cursor .two ∧ trackNumber .one < trackNumber .two) ∧
    (scanAt .residue 5).scan.pos = .residue ∧ (scanAt .fault 5).scan.pos = .fault := by decide
theorem witness_ReservedPositionIsPassedOver :
    let s := { scanAt (.body .one 0 1 false) 2 with params := { Params.default with skip1 := 2 } }
    s.scan.pos = .body .one 0 1 false ∧ s.scan.idx < 0 + 1 + skipOf s.params .one ∧ 0xC8#8 ≠ endByte .one := by decide
theorem witness_SeparatorAddsField :
    let s := scanAt (.body .two 0 1 true) 1
    s.scan.pos = .body .two 0 1 true ∧ 0 + 1 + skipOf s.params .two ≤ s.scan.idx := by decide
theorem witness_EndByteClosesRecord :
    ((scanAt (.body .three 0 1 true) 1).scan.pos = .body .three 0 1 true ∧ true = true) ∧
    ((scanAt (.body .one 0 1 false) 1).scan.pos = .body .one 0 1 false ∧ false = false) := by decide
theorem witness_NonAsciiByteMarksBody :
    let s := scanAt (.body .three 0 1 false) 1
    s.scan.pos = .body .three 0 1 false ∧ 0 + 1 + skipOf s.params .three ≤ s.scan.idx ∧ isAscii 0x80#8 = false := by decide
theorem witness_OtherPayloadByteIsPassedOver :
    (Instr.wellFormed (.trkFieldData .outside 0x80#8) = true ∧ (scanAt (.cursor .two) 5).scan.context = .outside ∧
      (scanAt .residue 5).scan.context = .outside ∧ (scanAt .fault 5).scan.context = .outside) ∧
    (Instr.wellFormed (.trkFieldData (.inside .two) 0x7F#8) = true ∧
      (scanAt (.body .two 0 1 false) 1).scan.context = .inside .two) := by decide
theorem witness_TrackRowsComputeDecode : State.reset.scan = Scan.init := by decide
/-- The text fills `WTEXT_MAX`. -/
theorem witness_WriteCommandSendsText :
    let s := small State.reset
    s.phase = .idle ∧ (abc ++ [0x20#8]).length ≤ s.params.wtextMax ∧ trim (abc ++ [0x20#8]) ≠ [] := by decide
theorem witness_EmptyTextGivesNoData :
    let s := small State.reset
    s.phase = .idle ∧ [0x09#8, 0x0A#8, 0x20#8, 0x0D#8].length ≤ s.params.wtextMax ∧
      trim [0x09#8, 0x0A#8, 0x20#8, 0x0D#8] = [] := by decide
theorem witness_OverlongTextIsRefused :
    let s := small State.reset
    s.phase = .idle ∧ s.params.wtextMax < (0x20#8 :: 0x20#8 :: abc).length := by decide
theorem witness_OpRawWriteSendsBothFrames :
    (expected (mk .idle .ack [] abc) = some abc ∧ abc ≠ []) ∧ (expected State.reset = some [] ∧ ([] : List Byte) = []) := by decide
theorem witness_EchoDecidesTheWrite :
    let s := State.reset
    s.params.wf ∧ s.phase = .idle ∧ abcText.length ≤ s.params.wtextMax ∧ trim abcText ≠ [] ∧
    (∀ b ∈ trim abcText, b ≠ 0x02#8 ∧ b ≠ 0x03#8 ∧ b ≠ 0x15#8) ∧
    (abc.length = (trim abcText).length ∧ (∀ b ∈ abc, b ≠ 0x02#8 ∧ b ≠ 0x03#8 ∧ b ≠ 0x15#8) ∧ abc = trim abcText) ∧
    (goodPl.length = (trim abcText).length ∧ (∀ b ∈ goodPl, b ≠ 0x02#8 ∧ b ≠ 0x03#8 ∧ b ≠ 0x15#8) ∧
      goodPl ≠ trim abcText) := by decide
/-- The three ways: still busy, ended, reset. -/
theorem witness_WriteEndsInOneOfFourOutcomes :
    let s := mk .data .ack abc abc
    (s.phase ≠ .idle ∧ s.mode = .ack ∧ s.outcome = .none) ∧
    nextOf (step s) = some s ∧
    nextOf (step { s with inputs := [.cycle { Pins.quiet with rxValid := true, rxData := 0x03#8 }] }) =
      some { s with phase := .idle, outcome := .ackOk } ∧
    nextOf (step { s with inputs := [.cycle { Pins.quiet with rst := true }] }) = some State.reset := by decide
/-- A command in IDLE, quiet pins, and a running command that stays busy and one that ends. -/
theorem witness_ReadCommandStartsHunting :
    (mk .idle .ack abc abc).phase = .idle ∧ (Pins.quiet.cancel = false ∧ Pins.quiet.rst = false) ∧
    (let s := mk .data .read goodPl []
     s.phase ≠ .idle ∧ s.mode = .read ∧ s.outcome = .none ∧ nextOf (step s) = some s ∧
       (nextOf (step { s with inputs := [.cycle { Pins.quiet with cancel := true }] })).map (·.outcome) = some .stopped ∧
       nextOf (step { s with inputs := [.cycle { Pins.quiet with rst := true }] }) = some State.reset) := by decide
theorem witness_CommandWhileBusyIsIgnored :
    (mk .hunt .read [] []).phase ≠ .idle ∧ (mk .data .ack abc abc).phase ≠ .idle := by decide
theorem witness_CancelStopsTheCommand :
    (mk .hunt .read [] []).phase ≠ .idle ∧ (mk .data .ack abc abc).phase ≠ .idle ∧
    { bytePins with cancel := true }.cancel = true := by decide
theorem witness_CancelInIdleHasNoEffect :
    let p := { Pins.quiet with cancel := true, cmd := 1#2 }
    let s := { mk .idle .ack abc abc with inputs := [.cycle p] }
    s.phase = .idle ∧ s.inputs = .cycle p :: [] ∧ p.rst = false ∧ p.cancel = true := by decide

/-- A cycle in which everything but a reset is presented. -/
def allPins : Pins :=
  { rst := false, cancel := true, rxValid := true, rxData := 0x03#8, rxFault := true, cmd := 1#2, wtext := abc, rdIndex := 0 }

/-- Each event of 00_scope.md R7, and none. -/
theorem witness_CycleInputsArePrioritised_events :
    arbitrate State.reset { allPins with rst := true } = some .reset ∧ arbitrate State.reset allPins = some .cancel ∧
    (let p := { allPins with cancel := false }
     arbitrate (mk .data .read [] []) p = some .rxFault ∧
       arbitrate (mk .hunt .read [] []) { p with rxFault := false } = some (.rxByte 0x03#8) ∧
       arbitrate State.reset p = some .cmdRead ∧
       arbitrate State.reset { p with cmd := 2#2 } = some (.cmdWrite abc) ∧
       arbitrate State.reset { p with cmd := 3#2 } = none) := by decide
theorem witness_CycleInputsArePrioritised :
    (∀ ph ∈ [Phase.idle, .data], ∀ p ∈ [{ allPins with rst := true }, allPins, { allPins with cancel := false }],
      { mk ph .read [] [] with inputs := [.cycle p] }.inputs = .cycle p :: []) ∧
    { allPins with rst := true }.rst = true ∧
    (allPins.rst = false ∧ allPins.cancel = true) ∧
    (let p := { allPins with cancel := false }
     p.rst = false ∧ p.cancel = false ∧ (mk .data .read [] []).phase ≠ .idle ∧ p.rxFault = true) ∧
    (let p := { allPins with cancel := false, rxFault := false }
     p.rst = false ∧ p.cancel = false ∧ p.rxFault = false ∧ p.rxValid = true) ∧
    (let p := Pins.quiet
     p.rst = false ∧ p.cancel = false ∧ p.rxFault = false ∧ p.rxValid = false) ∧
    (let p := { allPins with cancel := false }
     p.rst = false ∧ p.cancel = false ∧ (mk .idle .read [] []).phase = .idle ∧ p.cmd = 1#2) ∧
    { allPins with cmd := 2#2 }.cmd = 2#2 ∧
    ({ allPins with cmd := 3#2 }.cmd ≠ 1#2 ∧ { allPins with cmd := 3#2 }.cmd ≠ 2#2) := by decide
theorem witness_FinishWritesTheOutcome : ResultCode.frame ≠ .none ∧ ResultCode.noData ≠ .none := by decide
theorem witness_DoneIsClearedOnlyByCommandOrReset :
    let s := { State.reset with outcome := .stopped }
    done s = true ∧ exec .cmdRead s = .next (startRead s) ∧ done (startRead s) = false ∧
      exec .reset s = .next State.reset ∧ done State.reset = false :=
  ⟨rfl, rfl, rfl, rfl, rfl⟩
theorem witness_ModeIsWrittenOnlyByCommands :
    let s := mk .idle .ack [] []
    exec .cmdRead s = .next (startRead s) ∧ (startRead s).mode ≠ s.mode ∧
      exec .reset s = .next State.reset ∧ State.reset.mode ≠ s.mode :=
  ⟨rfl, by decide, rfl, by decide⟩
theorem witness_ExpectedTextIsWrittenOnlyByWrite :
    let s := mk .idle .ack [] abc
    (∃ t, exec (.cmdWrite [0x41#8]) s = .next t ∧ (t.exp ≠ s.exp ∨ t.explen ≠ s.explen)) ∧
    ∃ t, exec .reset s = .next t ∧ (t.exp ≠ s.exp ∨ t.explen ≠ s.explen) :=
  ⟨⟨_, rfl, by decide⟩, ⟨_, rfl, by decide⟩⟩
theorem witness_BufferIsWrittenOnlyAtLen :
    let s := mk .data .read abc []
    Instr.rxStoreData 0x44#8 ≠ .reset ∧
      ∃ t, exec (.rxStoreData 0x44#8) s = .next t ∧ Memory.read t.buf 3 ≠ Memory.read s.buf 3 :=
  ⟨by decide, ⟨_, rfl, by decide⟩⟩
theorem witness_TransmissionIsOneAppendedAction :
    (∃ t, exec .opRawWrite (mk .idle .ack [] abc) = .next t ∧ t.tx ≠ (mk .idle .ack [] abc).tx) ∧
    ∃ t, exec (.cmdWrite abcText) State.reset = .next t ∧ t.tx ≠ State.reset.tx :=
  ⟨⟨_, rfl, by decide⟩, ⟨_, rfl, by decide⟩⟩
theorem witness_HostReadsOnlyThePayload :
    payload (mk .idle .read abc []) = some abc ∧ (mk .idle .read abc []).phase = .idle ∧
    payload (mk .data .read abc []) = some abc ∧ (mk .data .read abc []).phase ≠ .idle := by decide
theorem witness_DecodeInvertsEncode :
    (Instr.trkNonascii .two 0x80#8).wellFormed = true ∧ (Instr.rxStoreData 0xFF#8).wellFormed = true := by decide
/-- A cycle, a script word that is a row, a script word that is none, nothing. -/
theorem witness_StepRunsTheDecodedRow :
    decode (fetchWord State.reset (.cycle { Pins.quiet with cmd := 1#2 })) = .ok .cmdRead ∧
    decode (fetchWord State.reset (.word [0x01#8, 0x60#8])) = .ok .cmdRead ∧
    decode (fetchWord State.reset (.word [0x04#8, 0x60#8])) = .error .noRow ∧
    State.reset.inputs = [] := ⟨rfl, rfl, rfl, rfl⟩

/-- A state in the middle of a frame with a cycle to come. -/
def running : State :=
  { mk .data .read goodPl [] with inputs := [.cycle { Pins.quiet with rxValid := true, rxData := 0x03#8 }] }
/-- What the ETX makes of it. -/
def ended : State :=
  { running with phase := .idle, outcome := .frame, trk2 := ⟨true, 1, 2, 1⟩, inputs := [] }

theorem witness_EveryStepKeepsInvariant : running.Inv ∧ nextOf (step running) = some ended := by decide
theorem witness_EveryStepKeepsResultsMeaningful :
    running.Inv ∧ resultsMeaningful running ∧ nextOf (step running) = some ended ∧ resultsMeaningful ended :=
  ⟨by decide, by decide, by decide, by decide⟩
theorem witness_EveryStepKeepsPayloadClean : payloadClean running ∧ nextOf (step running) = some ended :=
  ⟨by decide, by decide⟩
theorem witness_IndexesFitTheirPorts : ended.Inv := by decide
theorem witness_RunsFromLegalStatesNeverFault : (small running).Inv ∧ State.reset.Inv := ⟨by decide, by decide⟩

end Sys2Proof.Machine.Tests
end

/-! What `step` does in each of its three cases (00_scope.md R7, 60_exceptions.md R163): nothing presented, a word that is a row,
a word that is none. -/

namespace Sys2Proof.Machine

theorem step_of_inputs_nil {s : State} (hin : s.inputs = []) : step s = .next s := by
  simp only [step, hin]

theorem step_of_decode_ok {s : State} {inp : Input} {rest : List Input} {i : Instr} (hin : s.inputs = inp :: rest)
    (hdec : decode (fetchWord s inp) = .ok i) : step s = exec i { s with inputs := rest } := by
  simp only [step, hin, hdec]

theorem step_of_decode_error {s : State} {inp : Input} {rest : List Input} {e : DecodeError} (hin : s.inputs = inp :: rest)
    (hdec : decode (fetchWord s inp) = .error e) : step s = .refused (.badWord e) := by
  simp only [step, hin, hdec]

/-- Settles O54: one clause for each case of `step`. -/
theorem stepRunsTheDecodedRow : Obligations.StepRunsTheDecodedRow :=
  ⟨fun _ _ _ _ hin hdec => step_of_decode_ok hin hdec,
   fun _ _ _ _ hin hdec => step_of_decode_error hin hdec,
   fun _ hin => step_of_inputs_nil hin⟩

end Sys2Proof.Machine

/-! The invariant of the block and what it keeps (10_state.md R13 to R17, R22). -/

namespace Sys2Proof.Machine

/-! ### The payload and the expected text under the state's operations -/

/-- Fewer bytes of a written range are written too. -/
theorem Memory.filled_of_le {m : Memory} {k n : Nat} (hm : Memory.filled m n) (hk : k ≤ n) : Memory.filled m k := by
  obtain ⟨bs, hbs⟩ := Option.isSome_iff_exists.mp hm
  obtain ⟨hlen, hread⟩ := (Memory.load_eq_some_iff m n 0 bs).mp hbs
  refine Option.isSome_iff_exists.mpr ⟨bs.take k, (Memory.load_eq_some_iff m k 0 _).mpr ⟨?_, fun i hi => ?_⟩⟩
  · rw [List.length_take]; omega
  · rw [hread i (by omega), List.getElem?_take_of_lt hi]

theorem payload_length {s : State} {pl : List Byte} (h : payload s = some pl) : pl.length = s.len :=
  ((Memory.load_eq_some_iff _ _ _ _).mp h).1

theorem expected_length {s : State} {x : List Byte} (h : expected s = some x) : x.length = s.explen :=
  ((Memory.load_eq_some_iff _ _ _ _).mp h).1

@[simp] theorem payload_finish_keep (c : ResultCode) (s : State) : payload (finish c .keep s) = payload s := rfl
@[simp] theorem payload_storeTracks (r : TrackRec × TrackRec × TrackRec) (s : State) :
    payload (storeTracks r s) = payload s := rfl
@[simp] theorem expected_finish (c : ResultCode) (k : Keep) (s : State) : expected (finish c k s) = expected s := rfl

/-- R34: a stored byte stands behind the payload that was there. -/
theorem payload_append {s : State} {pl : List Byte} (b : Byte) (h : payload s = some pl) :
    payload (append b s) = some (pl ++ [b]) := by
  have hold : Memory.load (Memory.write s.buf s.len b) 0 s.len = some pl :=
    (Memory.load_congr s.len fun c _ hc => Memory.read_write_other b (by omega)).trans h
  exact Memory.load_succ_end _ _ _ _ _ hold (by simp)

/-- R113: what a write command stores is the expected text. -/
theorem expected_storeExpected (x : List Byte) (s : State) : expected (storeExpected x s) = some x := by
  refine (Memory.load_eq_some_iff _ _ _ _).mpr ⟨rfl, fun i hi => ?_⟩
  have hi' : i < x.length := hi
  simp [Memory.read_writeAll, hi']

theorem length_trim_le (t : List Byte) : (trim t).length ≤ t.length := by
  have hout := (List.dropWhile_suffix isWhitespace (l := (t.dropWhile isWhitespace).reverse)).length_le
  have hin := (List.dropWhile_suffix isWhitespace (l := t)).length_le
  simp only [trim, List.length_reverse] at hout ⊢
  omega

/-! ### The descriptors a decode delivers (41_track_decoder.md R92, R94, R97, R98) -/

theorem firstIndex_lt {c : Byte} : ∀ {l : List Byte} {i : Nat}, firstIndex c l = some i → i < l.length
  | [], i, h => by simp [firstIndex] at h
  | b :: bs, i, h => by
    simp only [firstIndex] at h
    split at h
    · cases h; simp
    · obtain ⟨j, hj, rfl⟩ := Option.map_eq_some_iff.mp h
      have := firstIndex_lt hj
      simp only [List.length_cons]; omega

theorem findEnd_lt_length {n : TrackNo} {pl : List Byte} {p e : Nat} (h : findEnd n pl p = some e) : e < pl.length := by
  obtain ⟨j, hj, rfl⟩ := Option.map_eq_some_iff.mp h
  have := firstIndex_lt hj
  rw [List.length_drop] at this
  omega

theorem length_slice_le (l : List Byte) (a b : Nat) : (slice l a b).length ≤ b - a :=
  List.length_take_le _ _

/-- The descriptor of one extraction is legal in a payload of that length: a body has no more separators than bytes. -/
theorem extract_record_legal (skip : Nat) (n : TrackNo) (pl : List Byte) (p : Nat) :
    (extract skip n pl p).record.legal pl.length := by
  unfold extract
  split
  · exact .inl rfl
  · split
    · exact .inl rfl
    · rename_i e he
      dsimp only
      split
      · exact .inl rfl
      · have hend := findEnd_lt_length he
        have hcount := (List.count_le_length (a := sepByte n) (l := slice pl (min (p + 1 + skip) e) e)).trans
          (length_slice_le _ _ _)
        exact .inr ⟨rfl, Nat.min_le_right _ _, hend, Nat.le_add_right _ _, by simp only [Extracted.record]; omega⟩

/-- R99: what a decode that does not fault delivers are three extractions. -/
theorem decodeTracks_eq_some {q : Params} {pl : List Byte} {r : TrackRec × TrackRec × TrackRec}
    (h : decodeTracks q pl = some r) :
    ∃ p1 p2, r = ((extract (skipOf q .one) .one pl 0).record, (extract (skipOf q .two) .two pl p1).record,
      (extract (skipOf q .three) .three pl p2).record) := by
  simp only [decodeTracks] at h
  split at h
  · cases h
  · rename_i p1 _
    split at h
    · cases h
    · rename_i p2 _
      split at h
      · cases h
      · cases h; exact ⟨p1, p2, rfl⟩

theorem decodeTracks_legal {q : Params} {pl : List Byte} {r : TrackRec × TrackRec × TrackRec}
    (h : decodeTracks q pl = some r) :
    r.1.legal pl.length ∧ r.2.1.legal pl.length ∧ r.2.2.legal pl.length := by
  obtain ⟨p1, p2, rfl⟩ := decodeTracks_eq_some h
  exact ⟨extract_record_legal _ _ _ _, extract_record_legal _ _ _ _, extract_record_legal _ _ _ _⟩

/-! ### The storage part of the invariant -/

/-- Shorter lengths over the same byte arrays: what a discard, a new frame and a command without a text do. -/
theorem storageLegal_of_le {s t : State} (h : storageLegal s) (hparams : t.params = s.params) (hbuf : t.buf = s.buf)
    (hexp : t.exp = s.exp) (hlen : t.len ≤ s.len) (hexplen : t.explen ≤ s.explen) : storageLegal t := by
  obtain ⟨hwf, hbufWf, hexpWf, hbufBelow, hexpBelow, hlenMax, hexplenMax, hbufFilled, hexpFilled⟩ := h
  simp only [storageLegal, hparams, hbuf, hexp]
  exact ⟨hwf, hbufWf, hexpWf, hbufBelow, hexpBelow, hlen.trans hlenMax, hexplen.trans hexplenMax,
    Memory.filled_of_le hbufFilled hlen, Memory.filled_of_le hexpFilled hexplen⟩

/-- R77: room for the byte keeps `buf` inside its size. -/
theorem storageLegal_append {s : State} (b : Byte) (h : storageLegal s) (hroom : s.len < s.params.payloadMax) :
    storageLegal (append b s) := by
  obtain ⟨hwf, hbufWf, hexpWf, hbufBelow, hexpBelow, -, hexplenMax, hbufFilled, hexpFilled⟩ := h
  obtain ⟨pl, hpl⟩ := Option.isSome_iff_exists.mp hbufFilled
  have hbelow : Memory.below (append b s).buf s.params.payloadMax := fun c hc => by
    rcases Memory.mem_write hc with rfl | hc
    · exact hroom
    · exact hbufBelow c hc
  exact ⟨hwf, Memory.wf_write _ _ hbufWf, hexpWf, hbelow, hexpBelow, hroom, hexplenMax,
    Option.isSome_iff_exists.mpr ⟨_, payload_append b hpl⟩, hexpFilled⟩

/-- R113: a text that fits keeps `exp` inside its size. -/
theorem storageLegal_storeExpected {s : State} {x : List Byte} (h : storageLegal s)
    (hfits : x.length ≤ s.params.wtextMax) : storageLegal (storeExpected x s) := by
  obtain ⟨hwf, hbufWf, hexpWf, hbufBelow, hexpBelow, hlenMax, -, hbufFilled, -⟩ := h
  have hbelow : Memory.below (storeExpected x s).exp s.params.wtextMax := fun c hc => by
    rcases Memory.mem_writeAll x hc with hc | hc
    · omega
    · exact hexpBelow c hc
  exact ⟨hwf, hbufWf, Memory.wf_writeAll _ _ hexpWf, hbufBelow, hbelow, hlenMax, hfits, hbufFilled,
    Option.isSome_iff_exists.mpr ⟨_, expected_storeExpected x s⟩⟩

theorem storageLegal_finish {s : State} (c : ResultCode) (k : Keep) (h : storageLegal s) :
    storageLegal (finish c k s) :=
  storageLegal_of_le h rfl rfl rfl (by cases k <;> simp) le_rfl

theorem storageLegal_beginCommand {s : State} (m : Mode) (h : storageLegal s) : storageLegal (beginCommand m s) :=
  storageLegal_of_le h rfl rfl rfl (Nat.zero_le _) le_rfl

/-! ### The invariant under each operation -/

theorem tracksLegal_of_tracksAbsent {s : State} (h : tracksAbsent s) : tracksLegal s :=
  ⟨fun _ => h, .inl h.1, .inl h.2.1, .inl h.2.2⟩

/-- While a command runs there is no outcome yet and no track (R15, R16). -/
theorem State.Inv.none_of_busy {s : State} (h : s.Inv) (hbusy : s.phase ≠ .idle) :
    s.outcome = .none ∧ tracksAbsent s := by
  obtain ⟨-, ⟨houtcome, -⟩, htracks, -⟩ := h
  have hnone : s.outcome = .none := Classical.byContradiction fun hne => hbusy (houtcome hne)
  exact ⟨hnone, htracks (by simp [hnone])⟩

/-- A state in which a command runs, nothing decided yet. -/
theorem State.Inv.of_busy {t : State} (hstorage : storageLegal t) (hbusy : t.phase ≠ .idle)
    (hnone : t.outcome = .none) (htracks : tracksAbsent t) (hhunt : t.phase = .hunt → t.len = 0)
    (hack : t.mode = .ack → 1 ≤ t.explen) : t.Inv :=
  ⟨hstorage, ⟨fun h => absurd hnone h, hhunt, fun h => absurd h hbusy, fun _ => hack⟩,
    tracksLegal_of_tracksAbsent htracks⟩

/-- R112, R115: a running acknowledgment has a text to compare with. -/
theorem State.Inv.explen_pos {s : State} (h : s.Inv) (hbusy : s.phase ≠ .idle) (hack : s.mode = .ack) :
    1 ≤ s.explen := by
  obtain ⟨-, ⟨-, -, -, htext⟩, -⟩ := h
  exact htext hbusy hack

theorem inv_openFrame {s : State} (h : s.Inv) (hhunt : s.phase = .hunt) : (openFrame s).Inv := by
  have hbusy : s.phase ≠ .idle := by simp [hhunt]
  obtain ⟨hnone, htracks⟩ := h.none_of_busy hbusy
  exact .of_busy (storageLegal_of_le h.1 rfl rfl rfl (Nat.zero_le _) le_rfl) (by simp) hnone htracks
    (fun _ => rfl) (h.explen_pos hbusy)

theorem inv_append {s : State} (b : Byte) (h : s.Inv) (hdata : s.phase = .data)
    (hroom : s.len < s.params.payloadMax) : (append b s).Inv := by
  have hbusy : s.phase ≠ .idle := by simp [hdata]
  obtain ⟨hnone, htracks⟩ := h.none_of_busy hbusy
  exact .of_busy (storageLegal_append b h.1 hroom) hbusy hnone htracks (by simp [hdata]) (h.explen_pos hbusy)

/-- R152: every ending but FRAME leaves a legal state, from any legal storage. -/
theorem inv_finish {s : State} {c : ResultCode} (k : Keep) (h : storageLegal s) (hc : c ≠ .none)
    (hframe : c ≠ .frame) : (finish c k s).Inv :=
  ⟨storageLegal_finish c k h, ⟨fun _ => rfl, by simp, by simp [hc], by simp⟩,
    tracksLegal_of_tracksAbsent (by simp [tracksAbsent, hframe])⟩

/-- R75, R101: a read frame ends with the descriptors its own decode delivered. -/
theorem inv_finish_frame {s : State} {pl : List Byte} {r : TrackRec × TrackRec × TrackRec} (h : storageLegal s)
    (hpl : payload s = some pl) (hr : decodeTracks s.params pl = some r) :
    (finish .frame .keep (storeTracks r s)).Inv := by
  refine ⟨storageLegal_finish _ _ h, ⟨fun _ => rfl, by simp, by simp, by simp⟩, fun hne => absurd rfl hne, ?_⟩
  simpa [payload_length hpl] using decodeTracks_legal hr

theorem inv_startRead {s : State} (h : storageLegal s) : (startRead s).Inv :=
  .of_busy (storageLegal_beginCommand .read h) (by simp) rfl ⟨rfl, rfl, rfl⟩ (fun _ => rfl) (by simp)

/-- The state a write command with a text leaves (R113, R114, R115). -/
theorem inv_startWrite {s : State} {x : List Byte} (h : storageLegal s) (hfits : x.length ≤ s.params.wtextMax)
    (hx : x ≠ []) :
    State.Inv { transmit (writeFrames x) (storeExpected x (beginCommand .ack s)) with phase := .hunt } :=
  .of_busy (storageLegal_storeExpected (storageLegal_beginCommand .ack h) hfits) (by simp) rfl ⟨rfl, rfl, rfl⟩
    (fun _ => rfl) (fun _ => List.length_pos_iff.mpr hx)

/-- R175: a reset needs nothing of the state it is met in but the block's parameters. -/
theorem inv_resetState {s : State} (h : s.params.wf) : (resetState s).Inv :=
  ⟨⟨h, Memory.wf_nil, Memory.wf_nil, by simp, by simp, Nat.zero_le _, Nat.zero_le _, rfl, rfl⟩,
    ⟨by simp, by simp, by simp, by simp⟩, tracksLegal_of_tracksAbsent ⟨rfl, rfl, rfl⟩⟩

theorem ExecEffect.keeps_inv {i : Instr} {s t : State} (he : ExecEffect i s t) (h : s.Inv) : t.Inv := by
  have hstorage : storageLegal s := h.1
  cases he with
  | stays => exact h
  | opened _ hhunt => exact inv_openFrame h hhunt
  | stored b _ hdata _ _ hroom => exact inv_append b h hdata hroom
  | overflowed => exact inv_finish _ hstorage (by split <;> simp) (by split <;> simp)
  | decodeFaulted => exact inv_finish .keep (s := { s with scan := Scan.init }) hstorage (by simp) (by simp)
  | framed pl r _ _ _ hpl hr => exact inv_finish_frame (s := { s with scan := Scan.init }) hstorage hpl hr
  | lengthDiffers => exact inv_finish _ hstorage (by simp) (by simp)
  | compared => exact inv_finish _ hstorage (by split <;> simp) (by split <;> simp)
  | transportFailed => exact inv_finish _ hstorage (by simp) (by simp)
  | stopped => exact inv_finish _ hstorage (by simp) (by simp)
  | readStarted => exact inv_startRead hstorage
  | noData =>
    exact inv_finish _ (storageLegal_of_le hstorage rfl rfl rfl (Nat.zero_le _) (Nat.zero_le _)) (by simp) (by simp)
  | writeStarted x _ _ hfits hx => exact inv_startWrite hstorage ((length_trim_le x).trans hfits) hx
  | sent => exact h
  | scanned => exact h
  | resetDone => exact inv_resetState hstorage.1

/-- R177: the parameters are fixed. -/
theorem ExecEffect.params_eq {i : Instr} {s t : State} (he : ExecEffect i s t) : t.params = s.params := by
  cases he <;> rfl

/-- Settles O56: by the cases of what a row can do; taking an input touches nothing the invariant speaks of. -/
theorem everyStepKeepsInvariant : Obligations.EveryStepKeepsInvariant := by
  intro s t h hstep
  rcases step_effect hstep with ⟨-, rfl⟩ | ⟨inp, rest, i, -, -, he⟩
  · exact ⟨h, rfl⟩
  · exact ⟨he.keeps_inv (s := { s with inputs := rest }) h, he.params_eq⟩

/-! ### What is meaningful after each outcome (R22) -/

/-- Without an outcome R22 asks only that nothing is accumulated outside a frame. -/
theorem resultsMeaningful_of_none {t : State} (hnone : t.outcome = .none) (hlen : t.phase ≠ .data → t.len = 0)
    (htracks : tracksAbsent t) : resultsMeaningful t := by
  simpa [resultsMeaningful, hnone] using And.intro hlen htracks

/-- The endings that discard the payload have nothing else to say. -/
theorem resultsMeaningful_finish_discard {s : State} {c : ResultCode}
    (hc : c ∈ [.transportFault, .stopped, .overflow, .writeFailed]) : resultsMeaningful (finish c .discard s) := by
  simp only [List.mem_cons, List.not_mem_nil, or_false] at hc
  rcases hc with rfl | rfl | rfl | rfl <;> simp [resultsMeaningful, tracksAbsent]

theorem resultsMeaningful_finish_decodeFault {s : State} {pl : List Byte} (hpl : payload s = some pl)
    (hd : decodeTracks s.params pl = none) : resultsMeaningful (finish .decodeFault .keep s) := by
  simp [resultsMeaningful, tracksAbsent, hpl, hd]

theorem resultsMeaningful_finish_frame {s : State} {pl : List Byte} {r : TrackRec × TrackRec × TrackRec}
    (hpl : payload s = some pl) (hr : decodeTracks s.params pl = some r) :
    resultsMeaningful (finish .frame .keep (storeTracks r s)) := by
  simp [resultsMeaningful, hpl, hr]

/-- R116: the verdict of an acknowledgment is whether the payload is the expected text. -/
theorem resultsMeaningful_finish_ackOk {s : State} (heq : payload s = expected s) :
    resultsMeaningful (finish .ackOk .keep s) := by
  simp [resultsMeaningful, tracksAbsent, heq]

theorem resultsMeaningful_finish_writeFailed {s : State} (hne : payload s ≠ expected s) :
    resultsMeaningful (finish .writeFailed .keep s) := by
  simp [resultsMeaningful, tracksAbsent, hne]

/-- In legal storage texts of different lengths are different, since both are written. -/
theorem payload_ne_expected_of_len_ne {s : State} (h : storageLegal s) (hlen : s.len ≠ s.explen) :
    payload s ≠ expected s := by
  obtain ⟨-, -, -, -, -, -, -, hbufFilled, -⟩ := h
  obtain ⟨pl, hpl⟩ : ∃ pl, payload s = some pl := Option.isSome_iff_exists.mp hbufFilled
  intro heq
  exact hlen ((payload_length hpl).symm.trans (expected_length (heq ▸ hpl)))

theorem ExecEffect.keeps_resultsMeaningful {i : Instr} {s t : State} (he : ExecEffect i s t) (h : s.Inv)
    (hres : resultsMeaningful s) : resultsMeaningful t := by
  cases he with
  | stays => exact hres
  | opened _ hhunt =>
    obtain ⟨hnone, htracks⟩ := h.none_of_busy (by simp [hhunt])
    exact resultsMeaningful_of_none hnone (fun _ => rfl) htracks
  | stored b _ hdata =>
    obtain ⟨hnone, htracks⟩ := h.none_of_busy (by simp [hdata])
    exact resultsMeaningful_of_none hnone (fun hne => absurd hdata hne) htracks
  | overflowed => exact resultsMeaningful_finish_discard (by split <;> simp)
  | decodeFaulted pl _ _ _ hpl hd =>
    exact resultsMeaningful_finish_decodeFault (s := { s with scan := Scan.init }) hpl hd
  | framed pl r _ _ _ hpl hr => exact resultsMeaningful_finish_frame (s := { s with scan := Scan.init }) hpl hr
  | lengthDiffers _ _ _ hlen =>
    exact resultsMeaningful_finish_writeFailed (payload_ne_expected_of_len_ne h.1 hlen)
  | compared pl x _ _ _ _ hpl hx =>
    split
    · exact resultsMeaningful_finish_ackOk (by simpa [hpl, hx])
    · exact resultsMeaningful_finish_writeFailed (by simpa [hpl, hx])
  | transportFailed => exact resultsMeaningful_finish_discard (by simp)
  | stopped => exact resultsMeaningful_finish_discard (by simp)
  | readStarted => exact resultsMeaningful_of_none rfl (fun _ => rfl) ⟨rfl, rfl, rfl⟩
  | noData => simp [resultsMeaningful, tracksAbsent]
  | writeStarted => exact resultsMeaningful_of_none rfl (fun _ => rfl) ⟨rfl, rfl, rfl⟩
  | sent => exact hres
  | scanned => exact hres
  | resetDone => exact resultsMeaningful_of_none rfl (fun _ => rfl) ⟨rfl, rfl, rfl⟩

/-- Settles O57: by the cases of what a row can do, each ending with its own line of R22's table. -/
theorem everyStepKeepsResultsMeaningful : Obligations.EveryStepKeepsResultsMeaningful := by
  intro s t h hres hstep
  rcases step_effect hstep with ⟨-, rfl⟩ | ⟨inp, rest, i, -, -, he⟩
  · exact hres
  · exact he.keeps_resultsMeaningful (s := { s with inputs := rest }) h hres

/-! ### Who may write `mode`, `exp` and `explen` (R12, R17) -/

/-- Settles O46: of all that a row can do, only the two commands and the reset write `mode`. -/
theorem modeIsWrittenOnlyByCommands : Obligations.ModeIsWrittenOnlyByCommands := by
  intro i s t hexec hmode
  cases exec_effect hexec with
  | readStarted hi hidle => exact .inl ⟨hidle, rfl, hi⟩
  | noData x hi hidle => exact .inr (.inl ⟨hidle, rfl, x, hi⟩)
  | writeStarted x hi hidle => exact .inr (.inl ⟨hidle, rfl, x, hi⟩)
  | resetDone => exact .inr (.inr ⟨rfl, rfl⟩)
  | _ => exact absurd rfl hmode

/-- Settles O47: of all that a row can do, only a write command and the reset write `exp` or `explen`. -/
theorem expectedTextIsWrittenOnlyByWrite : Obligations.ExpectedTextIsWrittenOnlyByWrite := by
  intro i s t hexec hchanged
  cases exec_effect hexec with
  | noData x hi hidle => exact .inl ⟨hidle, hi.imp (⟨x, ·⟩) (⟨x, ·⟩)⟩
  | writeStarted x hi hidle => exact .inl ⟨hidle, hi.imp (⟨x, ·⟩) (⟨x, ·⟩)⟩
  | resetDone => exact .inr rfl
  | _ => exact hchanged.elim (absurd rfl) (absurd rfl)

/-! ### The width of the index ports (00_scope.md R4, 10_state.md R10) -/

/-- `LW` bits hold every number up to `PAYLOAD_MAX`. -/
theorem indexPort_toNat {s : State} {v : Nat} (h : v ≤ s.params.payloadMax) : (indexPort s v).toNat = v := by
  have hmax : s.params.payloadMax < 2 ^ s.params.lw := Nat.lt_log2_self
  rw [indexPort, BitVec.toNat_ofNat, Nat.mod_eq_of_lt (h.trans_lt hmax)]

/-- A legal descriptor's three numbers are at most the payload's length. -/
theorem TrackRec.legal.le_len {r : TrackRec} {len : Nat} (h : r.legal len) : r.lo ≤ len ∧ r.hi ≤ len ∧ r.nf ≤ len := by
  rcases h with rfl | ⟨-, hlo, hhi, -, hnf⟩
  · simp [TrackRec.absent]
  · omega

theorem trkOf_legal {s : State} (h : tracksLegal s) (n : TrackNo) : (trkOf s n).legal s.len := by
  obtain ⟨-, h1, h2, h3⟩ := h
  cases n
  · exact h1
  · exact h2
  · exact h3

/-- Settles O59: the invariant bounds every index by `PAYLOAD_MAX`. -/
theorem indexesFitTheirPorts : Obligations.IndexesFitTheirPorts := by
  rintro s ⟨⟨⟨-, -, hwtext⟩, -, -, -, -, hlen, hexplen, -, -⟩, -, htracks⟩
  refine ⟨indexPort_toNat hlen, indexPort_toNat (hexplen.trans hwtext), fun n => ?_⟩
  obtain ⟨hlo, hhi, hnf⟩ := (trkOf_legal htracks n).le_len
  exact ⟨indexPort_toNat (hlo.trans hlen), indexPort_toNat (hhi.trans hlen), indexPort_toNat (hnf.trans hlen)⟩

/-! ### The state after reset (R23) -/

/-- Settles O42: each element and output read off the reset state. -/
theorem resetStateHasResetValues : Obligations.ResetStateHasResetValues :=
  ⟨rfl, rfl, rfl, rfl, rfl, fun n => by cases n <;> rfl, rfl, rfl, rfl, rfl, txValid_eq_false _, fun _ => rfl⟩

theorem Params.default_wf : Params.default.wf := by decide

/-- Settles O55: the reset state is what a reset makes of it, and R4's default parameters are in range. -/
theorem resetMeetsInvariant : Obligations.ResetMeetsInvariant :=
  inv_resetState (s := State.reset) Params.default_wf

end Sys2Proof.Machine

/-! Reads of the byte arrays (20_memory.md R34, R35, R42): who writes `buf`, what the host reads, and that no run from a legal
state reads a byte that was never written. -/

namespace Sys2Proof.Machine

/-! ### A fault is a read of an unwritten byte (R35) -/

/-- What each of the model's two faults says of the state it is raised in. -/
def Fault.cause : Fault → State → Prop
  | .bufUnwritten, s => payload s = none
  | .expUnwritten, s => expected s = none

/-- In legal storage every byte below the two lengths is written, so neither fault has a cause. -/
theorem Fault.not_cause_of_storageLegal {s : State} (h : storageLegal s) (r : Fault) : ¬ r.cause s := by
  obtain ⟨-, -, -, -, -, -, -, hbufFilled, hexpFilled⟩ := h
  cases r with
  | bufUnwritten => exact Option.isSome_iff_ne_none.mp hbufFilled
  | expUnwritten => exact Option.isSome_iff_ne_none.mp hexpFilled

theorem cause_of_endRead_fault {s : State} {r : Fault} (h : endRead s = .fault r) : r.cause s := by
  rcases endRead_spec s with ⟨hpl, he⟩ | ⟨_, _, _, he⟩ | ⟨_, _, _, _, he⟩ <;> rw [he] at h <;> cases h
  exact hpl

theorem cause_of_endAck_fault {s : State} {r : Fault} (h : endAck s = .fault r) : r.cause s := by
  rcases endAck_spec s with ⟨_, he⟩ | ⟨_, hpl, he⟩ | ⟨_, _, hx, he⟩ | ⟨_, _, _, _, _, he⟩ <;> rw [he] at h <;> cases h
  · exact hpl
  · exact hx

/-- Of all received bytes only an ETX in DATA reads bytes back. -/
theorem cause_of_rxByte_fault {b : Byte} {s : State} {r : Fault} (h : rxByte b s = .fault r) : r.cause s := by
  rcases rxByte_spec b s with ⟨_, he⟩ | ⟨_, _, he⟩ | ⟨_, _, he⟩ | ⟨_, he⟩ <;> rw [he] at h
  · cases h
  · cases h
  · cases h
  · rcases rxByteData_spec b s with ⟨_, _, hd⟩ | ⟨_, _, hd⟩ | ⟨_, hd⟩ | ⟨_, _, _, hd⟩ | ⟨_, _, _, hd⟩ <;> rw [hd] at h
    · exact cause_of_endRead_fault h
    · exact cause_of_endAck_fault h
    · cases h
    · cases h
    · cases h

/-- A write command reads nothing back. -/
theorem startWrite_ne_fault (t : List Byte) (s : State) (r : Fault) : startWrite t s ≠ .fault r := by
  rcases startWrite_spec t s with ⟨_, he⟩ | ⟨_, _, he⟩ | ⟨_, _, he⟩ <;> simp [he]

/-- The counterpart of `exec_effect`: the rows that can fault are the receive rows and OP_RAW_WRITE, each for its cause. -/
theorem cause_of_exec_fault {i : Instr} {s : State} {r : Fault} (h : exec i s = .fault r) : r.cause s := by
  cases i with
  | rxStxHunt => exact cause_of_rxByte_fault ((execRxStxHunt_eq s).symm.trans h)
  | rxDiscardHunt b => exact cause_of_rxByte_fault ((execRxDiscardHunt_eq b s).symm.trans h)
  | rxCrData => exact cause_of_rxByte_fault ((execRxCrData_eq s).symm.trans h)
  | rxEtxDataRead => exact cause_of_rxByte_fault ((execRxEtxDataRead_eq s).symm.trans h)
  | rxEtxDataAck => exact cause_of_rxByte_fault ((execRxEtxDataAck_eq s).symm.trans h)
  | rxStoreData b => exact cause_of_rxByte_fault ((execRxStoreData_eq b s).symm.trans h)
  | rxOverflowData b => exact cause_of_rxByte_fault ((execRxOverflowData_eq b s).symm.trans h)
  | rxIdle b => exact cause_of_rxByte_fault ((execRxIdle_eq b s).symm.trans h)
  | opRawWrite =>
    simp only [exec, execOpRawWrite] at h
    split at h
    · cases h; assumption
    · split at h <;> cases h
  | cmdRead =>
    simp only [exec, execCmdRead] at h
    split at h <;> cases h
  | cmdWrite t =>
    simp only [exec, execCmdWrite] at h
    split at h
    · exact absurd h (startWrite_ne_fault t s r)
    · cases h
  | cmdWhileBusy c =>
    simp only [exec, execCmdWhileBusy] at h
    split at h
    · cases c with
      | read => cases h
      | write t => exact absurd h (startWrite_ne_fault t s r)
    · cases h
  | cancelIdle => rw [exec, execCancelIdle_eq] at h; cases h
  | _ => cases h

/-- Taking an input reads no byte, so a step's fault has its cause in the state the step starts from. -/
theorem cause_of_step_fault {s : State} {r : Fault} (h : step s = .fault r) : r.cause s := by
  cases hin : s.inputs with
  | nil => rw [step_of_inputs_nil hin] at h; cases h
  | cons inp rest =>
    cases hdec : decode (fetchWord s inp) with
    | error e => rw [step_of_decode_error hin hdec] at h; cases h
    | ok i =>
      rw [step_of_decode_ok hin hdec] at h
      have hcause : r.cause { s with inputs := rest } := cause_of_exec_fault h
      cases r <;> exact hcause

theorem step_ne_fault {s : State} (h : s.Inv) (r : Fault) : step s ≠ .fault r :=
  fun hstep => Fault.not_cause_of_storageLegal h.1 r (cause_of_step_fault hstep)

/-- For every machine: a predicate that each step keeps and that excludes a fault in the next step excludes it in every run. -/
theorem run_ne_fault_of_invariant (M : Host.Core) (P : M.State → Prop)
    (hkeep : ∀ s t, P s → M.step s = .next t → P t) (hsafe : ∀ s, P s → ∀ r, M.step s ≠ .fault r) :
    ∀ (n : Nat) (s : M.State), P s → ∀ r, M.run n s ≠ .fault r
  | 0, _, _, _ => by simp [Host.Core.run]
  | n + 1, s, hs, r => by
    simp only [Host.Core.run]
    cases hstep : M.step s with
    | next t => exact run_ne_fault_of_invariant M P hkeep hsafe n t (hkeep s t hs hstep) r
    | fault q => exact absurd hstep (hsafe s hs q)
    | refused q => simp

/-- Settles O60: every step keeps the invariant (O56), and no step from a state that meets it faults. -/
theorem runsFromLegalStatesNeverFault : Obligations.RunsFromLegalStatesNeverFault :=
  run_ne_fault_of_invariant core State.Inv (fun s t h hstep => (everyStepKeepsInvariant s t h hstep).1)
    fun _ h => step_ne_fault h

/-! ### Who writes `buf` (R34) -/

/-- Settles O48: of all that a row but RESET can do, only a stored byte writes `buf`, and only at `len`. -/
theorem bufferIsWrittenOnlyAtLen : Obligations.BufferIsWrittenOnlyAtLen := by
  intro i s t hexec hreset a hread
  cases exec_effect hexec with
  | stored b _ hdata =>
    have hindex : a = s.len := Classical.byContradiction fun hne => hread (Memory.read_write_other b hne)
    exact ⟨hdata, hindex, rfl⟩
  | resetDone => exact absurd rfl hreset
  | _ => exact absurd rfl hread

/-! ### The host's read port (R35, R42) -/

/-- A written payload is what `buf` holds below `len`. -/
theorem read_buf_of_payload {s : State} {pl : List Byte} (h : payload s = some pl) {i : Nat} (hi : i < s.len) :
    Memory.read s.buf i = pl[i]? := by
  obtain ⟨-, hread⟩ := (Memory.load_eq_some_iff _ _ _ _).mp h
  simpa using hread i hi

/-- Settles O50: by the phase, then by whether the index is below `len`. -/
theorem hostReadsOnlyThePayload : Obligations.HostReadsOnlyThePayload := by
  intro s pl hpl i
  by_cases hidle : s.phase = .idle
  · rcases Nat.lt_or_ge i s.len with hi | hi
    · simp [hostRead, hidle, hi, read_buf_of_payload hpl hi]
    · have hbeyond : pl[i]? = none := List.getElem?_eq_none ((payload_length hpl).trans_le hi)
      simp [hostRead, hidle, hbeyond, Nat.not_lt.mpr hi]
  · simp [hostRead, hidle]

end Sys2Proof.Machine

/-! Encoding and decoding of event words (30_encoding.md R45, R54, R55, R59, R63), the track layer a byte at a time
(41_track_decoder.md R91 to R103), and the payload of a frame (R79). -/

namespace Sys2Proof.Machine

/-! ### One track-layer row is one payload byte (30_encoding.md R55) -/

/-- Whatever class a byte falls in, its row hands the track layer that same byte. -/
theorem exec_trackRow (c : TrackCtx) (b : Byte) (s : State) : exec (trackRow c b) s = .next (trackByte b s) := by
  cases c with
  | outside =>
    simp only [trackRow]
    split
    · subst b; rfl
    · split
      · subst b; rfl
      · split
        · subst b; rfl
        · rfl
  | inside n =>
    simp only [trackRow]
    split
    · subst b; cases n <;> rfl
    · split
      · subst b; cases n <;> rfl
      · split <;> rfl

/-- The scan after a sequence of payload bytes. -/
def Scan.bytes (q : Params) : List Byte → Scan → Scan
  | [], sc => sc
  | b :: bs, sc => Scan.bytes q bs (sc.byte q b)

/-- The track-layer rows never stop and move the scan only. -/
theorem runTrackRows_eq (pl : List Byte) :
    ∀ s : State, runTrackRows pl s = .next { s with scan := s.scan.bytes s.params pl } := by
  induction pl with
  | nil => intro s; rfl
  | cons b bs ih => intro s; simp only [runTrackRows, exec_trackRow, ih]; rfl

theorem Scan.bytes_append (q : Params) (xs ys : List Byte) :
    ∀ sc : Scan, sc.bytes q (xs ++ ys) = (sc.bytes q xs).bytes q ys := by
  induction xs with
  | nil => intro sc; rfl
  | cons x xs ih => intro sc; exact ih _

/-! ### The scan over the bytes of one record -/

/-- The three records a scan holds. -/
def Scan.tracks (sc : Scan) : TrackRec × TrackRec × TrackRec :=
  (sc.trk1, sc.trk2, sc.trk3)

/-- The records with that of track `n` replaced. -/
def setTrack (n : TrackNo) (r : TrackRec) (t : TrackRec × TrackRec × TrackRec) : TrackRec × TrackRec × TrackRec :=
  match n with
  | .one => (r, t.2.1, t.2.2)
  | .two => (t.1, r, t.2.2)
  | .three => (t.1, t.2.1, r)

theorem Scan.result_of_ne_fault {sc : Scan} (h : sc.pos ≠ .fault) : sc.result = some sc.tracks := by
  unfold Scan.result
  split
  · exact absurd ‹_› h
  all_goals rfl

/-- Residue never comes back to a cursor (R103). -/
theorem Scan.result_bytes_residue (q : Params) (bs : List Byte) :
    ∀ {sc : Scan}, sc.pos = .residue → (sc.bytes q bs).result = some sc.tracks := by
  induction bs with
  | nil => intro sc h; exact Scan.result_of_ne_fault (by simp [Scan.bytes, h])
  | cons b bs ih =>
    intro sc h
    have hbyte : sc.byte q b = { sc with idx := sc.idx + 1 } := by simp only [Scan.byte, h]
    rw [Scan.bytes, hbyte]
    exact ih h

/-- A fault ends the decode (R100). -/
theorem Scan.result_bytes_fault (q : Params) (bs : List Byte) :
    ∀ {sc : Scan}, sc.pos = .fault → (sc.bytes q bs).result = none := by
  induction bs with
  | nil => intro sc h; simp only [Scan.bytes, Scan.result, h]
  | cons b bs ih =>
    intro sc h
    have hbyte : sc.byte q b = { sc with idx := sc.idx + 1 } := by simp only [Scan.byte, h]
    rw [Scan.bytes, hbyte]
    exact ih h

theorem isAscii_sepByte (n : TrackNo) : isAscii (sepByte n) = true := by
  cases n <;> rfl

theorem isAscii_endByte (n : TrackNo) : isAscii (endByte n) = true := by
  cases n <;> rfl

/-- Inside a record, a byte that is not its end byte: past the reserved positions a separator adds a field and a byte >= 0x80
marks the body (R94, R95, R96). Of the one byte, `drop` keeps what is not reserved. -/
theorem Scan.byte_body {q : Params} {n : TrackNo} {p nf : Nat} {bad : Bool} {b : Byte} {sc : Scan}
    (hend : endByte n ≠ b) (hpos : sc.pos = .body n p nf bad) :
    sc.byte q b =
      { sc with
        pos := .body n p (nf + ([b].drop (p + 1 + skipOf q n - sc.idx)).count (sepByte n))
          (bad || ([b].drop (p + 1 + skipOf q n - sc.idx)).any (fun b => !isAscii b))
        idx := sc.idx + 1 } := by
  simp only [Scan.byte, hpos, if_neg hend.symm]
  split
  · have hdrop : [b].drop (p + 1 + skipOf q n - sc.idx) = [] :=
      List.drop_eq_nil_of_le (by simp only [List.length_singleton]; omega)
    simp [hdrop]
  · have hdrop : [b].drop (p + 1 + skipOf q n - sc.idx) = [b] := by
      rw [show p + 1 + skipOf q n - sc.idx = 0 by omega, List.drop_zero]
    rw [hdrop]
    split
    · subst b; simp [isAscii_sepByte]
    · split <;> simp [*]

/-- Inside a record, up to its end byte: the reserved bytes aside, the separators are counted and any byte >= 0x80 is
marked. -/
theorem Scan.bytes_body {q : Params} {n : TrackNo} {p : Nat} (body : List Byte) :
    ∀ {nf : Nat} {bad : Bool} {sc : Scan}, endByte n ∉ body → sc.pos = .body n p nf bad →
      sc.bytes q body =
        { sc with
          pos := .body n p (nf + (body.drop (p + 1 + skipOf q n - sc.idx)).count (sepByte n))
            (bad || (body.drop (p + 1 + skipOf q n - sc.idx)).any (fun b => !isAscii b))
          idx := sc.idx + body.length } := by
  induction body with
  | nil => intro nf bad sc _ h; simp [Scan.bytes, ← h]
  | cons b bs ih =>
    intro nf bad sc hend h
    obtain ⟨hb, hbs⟩ := List.ne_and_not_mem_of_not_mem_cons hend
    have hdrop : (b :: bs).drop (p + 1 + skipOf q n - sc.idx) =
        [b].drop (p + 1 + skipOf q n - sc.idx) ++ bs.drop (p + 1 + skipOf q n - (sc.idx + 1)) := by
      rw [Nat.sub_add_eq]; exact List.drop_append (l₁ := [b])
    rw [Scan.bytes, Scan.byte_body hb h, ih hbs rfl]
    simp only [hdrop, List.count_append, List.any_append, List.length_cons, Bool.or_assoc, Nat.add_assoc nf,
      Nat.add_assoc sc.idx, Nat.add_comm 1 bs.length]

/-- The end byte inside a record closes it. -/
theorem Scan.byte_endByte {q : Params} {n : TrackNo} {p nf : Nat} {bad : Bool} {sc : Scan}
    (h : sc.pos = .body n p nf bad) : sc.byte q (endByte n) = sc.close q n p nf bad := by
  simp only [Scan.byte, h, if_true]

theorem Scan.close_pos_of_bad (q : Params) (n : TrackNo) (p nf : Nat) (sc : Scan) :
    (sc.close q n p nf true).pos = .fault := rfl

@[simp] theorem Scan.close_pos (q : Params) (n : TrackNo) (p nf : Nat) (sc : Scan) :
    (sc.close q n p nf false).pos = afterTrack n := by
  cases n <;> rfl

@[simp] theorem Scan.close_idx (q : Params) (n : TrackNo) (p nf : Nat) (sc : Scan) :
    (sc.close q n p nf false).idx = sc.idx + 1 := by
  cases n <;> rfl

@[simp] theorem Scan.close_tracks (q : Params) (n : TrackNo) (p nf : Nat) (sc : Scan) :
    (sc.close q n p nf false).tracks =
      setTrack n { present := true, lo := min (p + 1 + skipOf q n) sc.idx, hi := sc.idx, nf := nf } sc.tracks := by
  cases n <;> rfl

/-! ### `extract` by the shape of the bytes at its cursor (R91 to R98) -/

theorem startByte_ne_endByte (n : TrackNo) : startByte n ≠ endByte n := by
  cases n <;> decide

theorem firstIndex_of_not_mem {c : Byte} : ∀ {l : List Byte}, c ∉ l → firstIndex c l = none
  | [], _ => rfl
  | b :: bs, h => by
    obtain ⟨hb, hbs⟩ := List.ne_and_not_mem_of_not_mem_cons h
    simp [firstIndex, Ne.symm hb, firstIndex_of_not_mem hbs]

theorem firstIndex_append_cons {c : Byte} (r : List Byte) :
    ∀ {l : List Byte}, c ∉ l → firstIndex c (l ++ c :: r) = some l.length
  | [], _ => by simp [firstIndex]
  | b :: bs, h => by
    obtain ⟨hb, hbs⟩ := List.ne_and_not_mem_of_not_mem_cons h
    simp [firstIndex, Ne.symm hb, firstIndex_append_cons r hbs]

theorem getElem?_of_drop_eq_cons {pl l : List Byte} {p : Nat} {b : Byte} (h : pl.drop p = b :: l) :
    pl[p]? = some b := by
  rw [← List.head?_drop, h]; rfl

theorem drop_succ_of_drop_eq_cons {pl l : List Byte} {p : Nat} {b : Byte} (h : pl.drop p = b :: l) :
    pl.drop (p + 1) = l := by
  rw [← List.drop_drop, h]; rfl

/-- R91: no start byte at the cursor. -/
theorem extract_of_no_start {n : TrackNo} {pl : List Byte} {p : Nat} (skip : Nat) (h : pl[p]? ≠ some (startByte n)) :
    extract skip n pl p = .absent p :=
  if_pos h

/-- R93: no end byte after the start byte. -/
theorem extract_of_no_end {n : TrackNo} {pl l : List Byte} {p : Nat} (skip : Nat)
    (hdrop : pl.drop p = startByte n :: l) (hend : endByte n ∉ l) : extract skip n pl p = .absent p := by
  have hfind : findEnd n pl p = none := by
    rw [findEnd, hdrop, firstIndex_of_not_mem (by simp [hend, (startByte_ne_endByte n).symm]), Option.map_none]
  simp [extract, getElem?_of_drop_eq_cons hdrop, hfind]

/-- The body of a record is what follows its reserved bytes (R94). -/
theorem slice_record {pl body rest : List Byte} {p : Nat} {b c : Byte} (skip : Nat)
    (hdrop : pl.drop p = b :: (body ++ c :: rest)) :
    slice pl (min (p + 1 + skip) (p + 1 + body.length)) (p + 1 + body.length) = body.drop skip := by
  have hlo : min (p + 1 + skip) (p + 1 + body.length) = p + 1 + min skip body.length := by omega
  have hwidth : p + 1 + body.length - (p + 1 + min skip body.length) = body.length - min skip body.length := by omega
  rw [hlo, slice, hwidth, ← List.drop_drop, drop_succ_of_drop_eq_cons hdrop,
    List.drop_append_of_le_length (Nat.min_le_right _ _), List.take_left' (by simp)]
  rcases Nat.le_total skip body.length with h | h
  · rw [Nat.min_eq_left h]
  · rw [Nat.min_eq_right h, List.drop_length, List.drop_eq_nil_of_le h]

/-- R92, R94 to R98: a record from its start byte to its first end byte. -/
theorem extract_of_record {n : TrackNo} {pl body rest : List Byte} {p : Nat} (skip : Nat)
    (hdrop : pl.drop p = startByte n :: (body ++ endByte n :: rest)) (hend : endByte n ∉ body) :
    extract skip n pl p =
      if (body.drop skip).any (fun b => !isAscii b) then .fault
      else .present (min (p + 1 + skip) (p + 1 + body.length)) (p + 1 + body.length)
        (1 + (body.drop skip).count (sepByte n)) (p + 1 + body.length + 1) := by
  have hfind : findEnd n pl p = some (p + 1 + body.length) := by
    rw [findEnd, hdrop, ← List.cons_append, firstIndex_append_cons _ (by simp [hend, (startByte_ne_endByte n).symm])]
    simp only [Option.map_some, List.length_cons]
    congr 1; omega
  simp only [extract, getElem?_of_drop_eq_cons hdrop, hfind, slice_record skip hdrop, ne_eq, not_true, if_false]

/-! ### The tracks still to be decoded (R99) -/

/-- The tracks from `n` on, in the order of the decode. -/
def tracksFrom : TrackNo → List TrackNo
  | .one => [.one, .two, .three]
  | .two => [.two, .three]
  | .three => [.three]

/-- The extractions of the tracks `ns` from cursor `p`, on top of the records `t` already there; a fault ends them. -/
def decodeRest (q : Params) (pl : List Byte) :
    List TrackNo → Nat → TrackRec × TrackRec × TrackRec → Option (TrackRec × TrackRec × TrackRec)
  | [], _, t => some t
  | n :: ns, p, t =>
    match extract (skipOf q n) n pl p with
    | .absent p' => decodeRest q pl ns p' t
    | .present lo hi nf p' => decodeRest q pl ns p' (setTrack n { present := true, lo := lo, hi := hi, nf := nf } t)
    | .fault => none

/-- `decode_tracks` is all three extractions from the start of the payload. -/
theorem decodeTracks_eq_decodeRest (q : Params) (pl : List Byte) :
    decodeTracks q pl = decodeRest q pl (tracksFrom .one) 0 Scan.init.tracks := by
  simp only [decodeTracks, decodeRest, tracksFrom]
  cases extract (skipOf q .one) .one pl 0 with
  | fault => rfl
  | _ =>
    simp only [Extracted.cursor]
    cases extract (skipOf q .two) .two pl _ with
    | fault => rfl
    | _ =>
      dsimp only
      cases extract (skipOf q .three) .three pl _ <;> rfl

/-- R91: a track whose start byte is not at the cursor is passed over. -/
theorem decodeRest_of_no_start {q : Params} {pl : List Byte} {n : TrackNo} {p : Nat} (ns : List TrackNo)
    (t : TrackRec × TrackRec × TrackRec) (h : pl[p]? ≠ some (startByte n)) :
    decodeRest q pl (n :: ns) p t = decodeRest q pl ns p t := by
  simp only [decodeRest, extract_of_no_start _ h]

theorem decodeRest_append_of_no_start {q : Params} {pl : List Byte} {p : Nat} {ns : List TrackNo}
    {t : TrackRec × TrackRec × TrackRec} :
    ∀ {passed : List TrackNo}, (∀ n ∈ passed, pl[p]? ≠ some (startByte n)) →
      decodeRest q pl (passed ++ ns) p t = decodeRest q pl ns p t
  | [], _ => rfl
  | n :: passed, h => by
    rw [List.cons_append, decodeRest_of_no_start _ t (h n List.mem_cons_self)]
    exact decodeRest_append_of_no_start fun m hm => h m (List.mem_cons_of_mem _ hm)

/-- No track of `ns` starts at the cursor: nothing is added. -/
theorem decodeRest_of_none_starts {q : Params} {pl : List Byte} {p : Nat} {t : TrackRec × TrackRec × TrackRec}
    {ns : List TrackNo} (h : ∀ n ∈ ns, pl[p]? ≠ some (startByte n)) : decodeRest q pl ns p t = some t := by
  simpa [decodeRest] using decodeRest_append_of_no_start (ns := []) h

/-- The tracks that come after track `n`. -/
def tracksAfter : TrackNo → List TrackNo
  | .one => [.two, .three]
  | .two => [.three]
  | .three => []

theorem tracksFrom_eq_cons (n : TrackNo) : tracksFrom n = n :: tracksAfter n := by
  cases n <;> rfl

/-- R63 (c), as the decode needs it: the byte that opens a record opens none of the later ones. -/
theorem startByte_ne_of_mem_tracksAfter (k : TrackNo) : ∀ m ∈ tracksAfter k, startByte k ≠ startByte m := by
  cases k <;> decide

/-- `startsFrom` finds no track only when none of the tracks to come starts with the byte. -/
theorem startByte_ne_of_startsFrom_eq_none {n : TrackNo} {b : Byte} (h : startsFrom n b = none) :
    ∀ m ∈ tracksFrom n, b ≠ startByte m := by
  cases n <;> grind [startsFrom, tracksFrom]

/-- The track `startsFrom` finds starts with the byte, and none of the tracks before it does. -/
theorem tracksFrom_eq_append_of_startsFrom {n k : TrackNo} {b : Byte} (h : startsFrom n b = some k) :
    b = startByte k ∧ ∃ passed, tracksFrom n = passed ++ tracksFrom k ∧ ∀ m ∈ passed, b ≠ startByte m := by
  cases n with
  | one =>
    simp only [startsFrom] at h
    split at h
    · cases h; exact ⟨‹_›, [], rfl, by simp⟩
    · split at h
      · cases h; exact ⟨‹_›, [.one], rfl, by simpa⟩
      · split at h <;> cases h
        exact ⟨‹_›, [.one, .two], rfl, by simpa using ⟨‹_›, ‹_›⟩⟩
  | two =>
    simp only [startsFrom] at h
    split at h
    · cases h; exact ⟨‹_›, [], rfl, by simp⟩
    · split at h <;> cases h
      exact ⟨‹_›, [.two], rfl, by simpa⟩
  | three =>
    simp only [startsFrom] at h
    split at h <;> cases h
    exact ⟨‹_›, [], rfl, by simp⟩

/-! ### The scan decodes what the extractions decode (R99, R100) -/

/-- A scan at position `pos` delivers, from the rest of the payload, the extractions of the tracks `ns`. -/
def DecodesRest (q : Params) (pl : List Byte) (pos : ScanPos) (ns : List TrackNo) : Prop :=
  ∀ sc : Scan, sc.pos = pos → (sc.bytes q (pl.drop sc.idx)).result = decodeRest q pl ns sc.idx sc.tracks

theorem decodesRest_residue (q : Params) (pl : List Byte) : DecodesRest q pl .residue [] :=
  fun _ hpos => Scan.result_bytes_residue q _ hpos

/-- A start byte opens the record of track `k`: the record has no end byte, or its body holds a byte >= 0x80, or it is present
and the decode goes on behind it. -/
theorem result_of_open_record {q : Params} {pl l : List Byte} {k : TrackNo} {sc : Scan}
    (hnext : DecodesRest q pl (afterTrack k) (tracksAfter k)) (hdrop : pl.drop sc.idx = startByte k :: l) :
    (Scan.bytes q l { sc with pos := .body k sc.idx 1 false, idx := sc.idx + 1 }).result =
      decodeRest q pl (tracksFrom k) sc.idx sc.tracks := by
  have hreserved : sc.idx + 1 + skipOf q k - (sc.idx + 1) = skipOf q k := by omega
  by_cases hend : endByte k ∈ l
  · obtain ⟨body, rest, rfl, hbody⟩ := List.eq_append_cons_of_mem hend
    rw [Scan.bytes_append, Scan.bytes_body body hbody rfl, Scan.bytes, Scan.byte_endByte rfl, tracksFrom_eq_cons,
      decodeRest, extract_of_record _ hdrop hbody]
    simp only [hreserved, Bool.false_or]
    cases (body.drop (skipOf q k)).any (fun b => !isAscii b) with
    | true => exact Scan.result_bytes_fault q rest (Scan.close_pos_of_bad q k _ _ _)
    | false =>
      have hrest : pl.drop (sc.idx + 1 + body.length + 1) = rest := by
        rw [Nat.add_assoc _ body.length, ← List.drop_drop, drop_succ_of_drop_eq_cons hdrop, ← List.drop_drop,
          List.drop_left, List.drop_succ_cons, List.drop_zero]
      have hclosed := hnext _ (Scan.close_pos q k sc.idx (1 + (body.drop (skipOf q k)).count (sepByte k))
        { sc with pos := .body k sc.idx (1 + (body.drop (skipOf q k)).count (sepByte k)) false
                  idx := sc.idx + 1 + body.length })
      rw [Scan.close_idx, Scan.close_tracks, hrest] at hclosed
      exact hclosed
  · rw [Scan.bytes_body l hend rfl, Scan.result_of_ne_fault (by simp), tracksFrom_eq_cons, decodeRest,
      extract_of_no_end _ hdrop hend]
    refine (decodeRest_of_none_starts fun m hm => ?_).symm
    rw [getElem?_of_drop_eq_cons hdrop]
    simpa using startByte_ne_of_mem_tracksAfter k m hm

/-- At the cursor of track `n` the next byte opens one of the tracks to come, or none of them is there. -/
theorem decodesRest_cursor {q : Params} {pl : List Byte} {n : TrackNo}
    (hnext : ∀ k ∈ tracksFrom n, DecodesRest q pl (afterTrack k) (tracksAfter k)) :
    DecodesRest q pl (.cursor n) (tracksFrom n) := by
  intro sc hpos
  cases hdrop : pl.drop sc.idx with
  | nil =>
    have hnone : pl[sc.idx]? = none := by rw [← List.head?_drop, hdrop]; rfl
    rw [decodeRest_of_none_starts (by simp [hnone])]
    exact Scan.result_of_ne_fault (by simp [Scan.bytes, hpos])
  | cons b l =>
    have hget : pl[sc.idx]? = some b := getElem?_of_drop_eq_cons hdrop
    cases hstart : startsFrom n b with
    | none =>
      have hbyte : sc.byte q b = { sc with pos := .residue, idx := sc.idx + 1 } := by
        simp only [Scan.byte, hpos, hstart]
      have hne := startByte_ne_of_startsFrom_eq_none hstart
      rw [Scan.bytes, hbyte, decodeRest_of_none_starts (by simpa [hget] using hne)]
      exact Scan.result_bytes_residue q l rfl
    | some k =>
      have hbyte : sc.byte q b = { sc with pos := .body k sc.idx 1 false, idx := sc.idx + 1 } := by
        simp only [Scan.byte, hpos, hstart]
      obtain ⟨rfl, passed, hsplit, hpassed⟩ := tracksFrom_eq_append_of_startsFrom hstart
      have hk : k ∈ tracksFrom n := by simp [hsplit, tracksFrom_eq_cons k]
      rw [Scan.bytes, hbyte, result_of_open_record (hnext k hk) hdrop, hsplit,
        decodeRest_append_of_no_start (by simpa [hget] using hpassed)]

/-- What follows a closed record: by the number of tracks that are left. -/
theorem decodesRest_afterTrack (q : Params) (pl : List Byte) (k : TrackNo) :
    DecodesRest q pl (afterTrack k) (tracksAfter k) := by
  have hthree : DecodesRest q pl (afterTrack .three) (tracksAfter .three) := decodesRest_residue q pl
  have htwo : DecodesRest q pl (afterTrack .two) (tracksAfter .two) :=
    decodesRest_cursor (n := .three) (by simpa [tracksFrom] using hthree)
  have hone : DecodesRest q pl (afterTrack .one) (tracksAfter .one) :=
    decodesRest_cursor (n := .two) (by simpa [tracksFrom] using ⟨htwo, hthree⟩)
  cases k
  · exact hone
  · exact htwo
  · exact hthree

/-- Settles O26: the rows are the scan over the payload, and the scan from its start delivers the three extractions. -/
theorem trackRowsComputeDecode : Obligations.TrackRowsComputeDecode := by
  intro s pl hinit
  have hdecodes : DecodesRest s.params pl (.cursor .one) (tracksFrom .one) :=
    decodesRest_cursor fun k _ => decodesRest_afterTrack s.params pl k
  exact ⟨_, runTrackRows_eq pl s, by rw [hinit, decodeTracks_eq_decodeRest]; exact hdecodes Scan.init rfl⟩

/-! ### Event words and their rows (30_encoding.md R54, R55, R59) -/

theorem decodeRx_idle (m : Mode) (full : Bool) (b : Byte) :
    decodeRx (rxContext .idle m full) b = .ok (.rxIdle b) := by
  cases m <;> cases full <;> rfl

theorem decodeRx_hunt (m : Mode) (full : Bool) (b : Byte) :
    decodeRx (rxContext .hunt m full) b = .ok (if b = rawByte .STX then .rxStxHunt else .rxDiscardHunt b) := by
  have hrow : decodeRx (rxContext .hunt m full) b =
      if b = rawByte .STX then .ok .rxStxHunt else .ok (.rxDiscardHunt b) := by
    cases m <;> cases full <;> rfl
  rw [hrow, apply_ite Except.ok]

/-- R158: in DATA an ETX is tested first, then a CR, then whether there is room. -/
theorem decodeRx_data (m : Mode) (full : Bool) (b : Byte) :
    decodeRx (rxContext .data m full) b =
      if b = rawByte .ETX then .ok (if m = .read then .rxEtxDataRead else .rxEtxDataAck)
      else if b = rawByte .CR then .ok .rxCrData
      else .ok (if full = true then .rxOverflowData b else .rxStoreData b) := by
  cases m <;> cases full <;> rfl

theorem decode_trackWord (c : TrackCtx) (b : Byte) : decode (trackWord c b) = .ok (trackRow c b) := by
  simp only [trackWord, decode, selector_port (trackContext_lt c), selector_context (trackContext_lt c), noOperands,
    if_true]
  rcases c with _ | n
  · rfl
  · cases n <;> rfl

theorem decode_hostCmdWord {ctx : Nat} (h : ctx < 16) (v : Byte) (ops : List Byte) :
    decode (v :: selector .hostCmd ctx :: ops) = decodeHostCmd ctx v ops := by
  simp only [decode, selector_port h, selector_context h]

theorem trackRow_of_not_isAscii {n : TrackNo} {b : Byte} (h : isAscii b = false) :
    trackRow (.inside n) b = .trkNonascii n b := by
  have hend : b ≠ endByte n := by rintro rfl; simp [isAscii_endByte] at h
  have hsep : b ≠ sepByte n := by rintro rfl; simp [isAscii_sepByte] at h
  simp [trackRow, hend, hsep, h]

theorem trackRow_of_fieldData {c : TrackCtx} {b : Byte} (h : (Instr.trkFieldData c b).wellFormed = true) :
    trackRow c b = .trkFieldData c b := by
  cases c with
  | outside =>
    simp only [Instr.wellFormed, isStartByte, Bool.not_eq_true', Bool.or_eq_false_iff, beq_eq_false_iff_ne] at h
    obtain ⟨⟨h1, h2⟩, h3⟩ := h
    simp only [trackRow, if_neg h1, if_neg h2, if_neg h3]
  | inside n =>
    simp only [Instr.wellFormed, Bool.and_eq_true, bne_iff_ne] at h
    obtain ⟨⟨hascii, hsep⟩, hend⟩ := h
    simp only [trackRow, if_neg hend, if_neg hsep, if_pos hascii]

/-- Settles O51: row by row; a row that names its byte is read off its word, a row of a class of bytes by the class. -/
theorem decodeInvertsEncode : Obligations.DecodeInvertsEncode := by
  intro i h
  cases i with
  | rxDiscardHunt b =>
    have hb : b ≠ rawByte .STX := by simpa [Instr.wellFormed] using h
    rw [encode, decode_rxWord, decodeRx_hunt, if_neg hb]
  | rxStoreData b =>
    obtain ⟨hetx, hcr⟩ : b ≠ rawByte .ETX ∧ b ≠ rawByte .CR := by simpa [Instr.wellFormed] using h
    rw [encode, decode_rxWord, decodeRx_data, if_neg hetx, if_neg hcr]; rfl
  | rxOverflowData b =>
    obtain ⟨hetx, hcr⟩ : b ≠ rawByte .ETX ∧ b ≠ rawByte .CR := by simpa [Instr.wellFormed] using h
    rw [encode, decode_rxWord, decodeRx_data, if_neg hetx, if_neg hcr]; rfl
  | rxIdle b => rw [encode, decode_rxWord, decodeRx_idle]
  | trkNonascii n b =>
    have hb : isAscii b = false := by simpa [Instr.wellFormed] using h
    rw [encode, decode_trackWord, trackRow_of_not_isAscii hb]
  | trkFieldData c b => rw [encode, decode_trackWord, trackRow_of_fieldData h]
  | cmdWrite t => exact decode_hostCmdWord (by decide) _ t
  | cmdWhileBusy c =>
    cases c with
    | read => rfl
    | write t => exact decode_hostCmdWord (by decide) _ t
  | _ => rfl

/-- Settles O10: the row of each phase, with the buffer's fill where the phase is DATA. -/
theorem receivedByteSelectsItsRow : Obligations.ReceivedByteSelectsItsRow := by
  intro s b
  rw [decode_rxWord]
  cases hphase : s.phase with
  | idle => exact ⟨_, decodeRx_idle _ _ b, by simp⟩
  | hunt => exact ⟨_, decodeRx_hunt _ _ b, nofun, fun _ => rfl, nofun, nofun, nofun⟩
  | data =>
    rw [decodeRx_data]
    by_cases hetx : b = rawByte .ETX
    · exact ⟨_, if_pos hetx, by simp [hetx, rawByte]⟩
    · rw [if_neg hetx]
      by_cases hcr : b = rawByte .CR
      · exact ⟨_, if_pos hcr, by simp [hcr, rawByte]⟩
      · refine ⟨_, if_neg hcr, nofun, nofun, fun _ h => absurd h hetx, fun _ h => absurd h hcr, fun _ _ _ => ?_⟩
        by_cases hroom : s.len < s.params.payloadMax <;> simp [bufferFull, hroom]

/-! ### The constants (R45, R63, R131) -/

/-- Settles O34: the table of R45, and R131's encoded view of each constant. -/
theorem constantsHaveTheirValues : Obligations.ConstantsHaveTheirValues :=
  ⟨rfl, fun _ => rfl⟩

theorem startByte_injective {m n : TrackNo} (h : startByte m = startByte n) : m = n := by
  revert h
  cases m <;> cases n <;> decide

/-- R63 (d). -/
theorem delimiter_range (n : TrackNo) :
    ∀ b ∈ [startByte n, sepByte n, endByte n], 0x24 ≤ b.toNat ∧ b.toNat ≤ 0x5E := by
  cases n <;> decide

/-- Settles O35: the clauses of R63, each over the tracks or the constants it speaks of. -/
theorem delimitersAreDistinct : Obligations.DelimitersAreDistinct := by
  have hdistinct : ∀ n, startByte n ≠ sepByte n ∧ startByte n ≠ endByte n ∧ sepByte n ≠ endByte n := fun n => by
    cases n <;> decide
  have hascii : ∀ k, isAscii (rawByte k) = true := fun k => by
    cases k <;> rfl
  exact ⟨hdistinct, fun _ _ => startByte_injective, delimiter_range, by decide, by decide, by decide, hascii⟩

/-! ### Rows of single bytes: TRK_FIELD_DATA and OP_RAW_WRITE -/

/-- A byte that is no start byte opens no record. -/
theorem startsFrom_of_not_isStartByte {b : Byte} (h : isStartByte b = false) (n : TrackNo) : startsFrom n b = none := by
  simp only [isStartByte, Bool.or_eq_false_iff, beq_eq_false_iff_ne] at h
  obtain ⟨⟨h1, h2⟩, h3⟩ := h
  cases n <;> simp [startsFrom, h1, h2, h3]

/-- Settles O25: by the place where the scan stands. -/
theorem otherPayloadByteIsPassedOver : Obligations.OtherPayloadByteIsPassedOver := by
  rintro s c b hwf rfl
  have hexec : exec (.trkFieldData s.scan.context b) s = .next { s with scan := s.scan.byte s.params b } := rfl
  rw [hexec]
  congr 2
  cases hpos : s.scan.pos with
  | cursor n =>
    have hstart : isStartByte b = false := by simpa [Scan.context, hpos, Instr.wellFormed] using hwf
    simp only [Scan.byte, hpos, startsFrom_of_not_isStartByte hstart]
  | body n p nf bad =>
    obtain ⟨⟨hascii, hsep⟩, hend⟩ : (isAscii b = true ∧ b ≠ sepByte n) ∧ b ≠ endByte n := by
      simpa [Scan.context, hpos, Instr.wellFormed] using hwf
    simp only [Scan.byte, hpos, if_neg hend, if_neg hsep, if_pos hascii, ite_self]
  | residue => simp only [Scan.byte, hpos]
  | fault => simp only [Scan.byte, hpos]

/-- Settles O31: the two frames of R113 written out around the text. -/
theorem opRawWriteSendsBothFrames : Obligations.OpRawWriteSendsBothFrames := by
  intro s x hx
  refine ⟨fun hne => ?_, fun hnil => ?_⟩
  · simp only [exec, execOpRawWrite, hx, if_neg hne]; rfl
  · simp only [exec, execOpRawWrite, hx, if_pos hnil]

/-! ### The payload holds no CR and no ETX (R47, R79) -/

/-- R34, for a payload with or without unwritten bytes. -/
theorem payload_append_eq_map (b : Byte) (s : State) : payload (append b s) = (payload s).map (· ++ [b]) := by
  cases hpl : payload s with
  | some pl => exact payload_append b hpl
  | none =>
    have hold : Memory.load (append b s).buf 0 s.len = none :=
      (Memory.load_congr s.len fun c _ hc => Memory.read_write_other b (by omega)).trans hpl
    refine Option.not_isSome_iff_eq_none.mp fun hfilled => ?_
    have hfilledOld : Memory.filled (append b s).buf s.len := Memory.filled_of_le hfilled (Nat.le_succ _)
    rw [Memory.filled, hold] at hfilledOld
    cases hfilledOld

theorem payloadClean_of_len_zero {s : State} (h : s.len = 0) : payloadClean s := by
  intro pl hpl
  have hnil : pl = [] := List.length_eq_zero_iff.mp ((payload_length hpl).trans h)
  simp [hnil]

/-- A stored byte is neither CR nor ETX (R77), so it keeps the payload clean. -/
theorem payloadClean_append {s : State} {b : Byte} (h : payloadClean s) (hetx : b ≠ rawByte .ETX)
    (hcr : b ≠ rawByte .CR) : payloadClean (append b s) := by
  intro pl hpl
  rw [payload_append_eq_map] at hpl
  obtain ⟨old, hold, rfl⟩ := Option.map_eq_some_iff.mp hpl
  obtain ⟨hnoCr, hnoEtx⟩ := h old hold
  simp [hnoCr, hnoEtx, Ne.symm hetx, Ne.symm hcr]

theorem ExecEffect.keeps_payloadClean {i : Instr} {s t : State} (he : ExecEffect i s t) (h : payloadClean s) :
    payloadClean t := by
  cases he with
  | stored b _ _ hetx hcr => exact payloadClean_append h hetx hcr
  | opened => exact payloadClean_of_len_zero rfl
  | overflowed => exact payloadClean_of_len_zero rfl
  | transportFailed => exact payloadClean_of_len_zero rfl
  | stopped => exact payloadClean_of_len_zero rfl
  | readStarted => exact payloadClean_of_len_zero rfl
  | noData => exact payloadClean_of_len_zero rfl
  | writeStarted => exact payloadClean_of_len_zero rfl
  | resetDone => exact payloadClean_of_len_zero rfl
  | _ => exact h

/-- Settles O58: only a stored byte lengthens the payload; every other effect keeps it or empties it. -/
theorem everyStepKeepsPayloadClean : Obligations.EveryStepKeepsPayloadClean := by
  intro s t h hstep
  rcases step_effect hstep with ⟨-, rfl⟩ | ⟨inp, rest, i, -, -, he⟩
  · exact h
  · exact he.keeps_payloadClean (s := { s with inputs := rest }) h

end Sys2Proof.Machine

/-! FrameReader (40_frame_reader.md): the response to a received byte by phase and class of byte, the ways a reception ends, what
stands on the byte port, and the payload function over a whole frame (R79). -/

namespace Sys2Proof.Machine

/-! ### The response to one byte (R71 to R78) -/

theorem rxByte_of_idle {s : State} (hidle : s.phase = .idle) (b : Byte) : rxByte b s = .next s := by
  simp only [rxByte, hidle]

theorem rxByte_stx_of_hunt {s : State} (hhunt : s.phase = .hunt) : rxByte (rawByte .STX) s = .next (openFrame s) := by
  simp only [rxByte, hhunt, if_true]

theorem rxByte_of_hunt {s : State} {b : Byte} (hhunt : s.phase = .hunt) (hstx : b ≠ rawByte .STX) :
    rxByte b s = .next s := by
  simp only [rxByte, hhunt, if_neg hstx]

theorem rxByte_etx_of_read {s : State} (hdata : s.phase = .data) (hread : s.mode = .read) :
    rxByte (rawByte .ETX) s = endRead s := by
  simp only [rxByte, hdata, rxByteData, hread, if_true]

theorem rxByte_etx_of_ack {s : State} (hdata : s.phase = .data) (hack : s.mode = .ack) :
    rxByte (rawByte .ETX) s = endAck s := by
  simp only [rxByte, hdata, rxByteData, hack, if_true]

theorem rxByte_cr_of_data {s : State} (hdata : s.phase = .data) : rxByte (rawByte .CR) s = .next s := by
  have hetx : rawByte .CR ≠ rawByte .ETX := by decide
  simp only [rxByte, hdata, rxByteData, if_neg hetx, if_true]

theorem rxByte_of_room {s : State} {b : Byte} (hdata : s.phase = .data) (hetx : b ≠ rawByte .ETX)
    (hcr : b ≠ rawByte .CR) (hroom : s.len < s.params.payloadMax) : rxByte b s = .next (append b s) := by
  simp [rxByte, hdata, rxByteData, hetx, hcr, bufferFull, hroom]

theorem rxByte_of_full {s : State} {b : Byte} (hdata : s.phase = .data) (hetx : b ≠ rawByte .ETX)
    (hcr : b ≠ rawByte .CR) (hfull : s.params.payloadMax ≤ s.len) :
    rxByte b s = .next (finish (if s.mode = .read then .overflow else .writeFailed) .discard s) := by
  simp [rxByte, hdata, rxByteData, hetx, hcr, bufferFull, hfull, overflow_spec]

/-! ### The byte port (R70, R71) -/

theorem busy_eq_true {s : State} (hbusy : s.phase ≠ .idle) : busy s = true := by
  simpa [busy] using hbusy

theorem rxReady_of_idle {s : State} (hidle : s.phase = .idle) (p : Pins) : rxReady s p = false := by
  simp [rxReady, busy, hidle]

theorem takenByte_of_idle {s : State} (hidle : s.phase = .idle) (p : Pins) : takenByte s p = none := by
  simp [takenByte, rxReady_of_idle hidle]

/-- A failed read delivers no byte. -/
theorem takenByte_of_rxFault (s : State) {p : Pins} (hfault : p.rxFault = true) : takenByte s p = none := by
  simp [takenByte, hfault]

/-- While a command runs, a byte that is offered and meets nothing of a higher priority is taken. -/
theorem takenByte_of_busy {s : State} {p : Pins} (hbusy : s.phase ≠ .idle) (hrst : p.rst = false)
    (hcancel : p.cancel = false) (hfault : p.rxFault = false) (hvalid : p.rxValid = true) :
    takenByte s p = some p.rxData := by
  simp [takenByte, rxReady, busy_eq_true hbusy, hrst, hcancel, hfault, hvalid]

/-! ### HUNT -/

/-- Settles O1: the row is the response to an STX, which in HUNT opens the frame. -/
theorem stxInHuntOpensFrame : Obligations.StxInHuntOpensFrame := fun s hhunt =>
  (execRxStxHunt_eq s).trans (rxByte_stx_of_hunt hhunt)

/-- Settles O2: the row is the response to its byte, and HUNT is a running command. -/
theorem otherByteInHuntIsDiscarded : Obligations.OtherByteInHuntIsDiscarded := by
  intro s b hhunt hstx
  have hbusy : s.phase ≠ .idle := by simp [hhunt]
  exact ⟨(execRxDiscardHunt_eq b s).trans (rxByte_of_hunt hhunt hstx), fun _ => takenByte_of_busy hbusy⟩

/-! ### DATA -/

theorem exec_rxCrData_of_data {s : State} (hdata : s.phase = .data) : exec .rxCrData s = .next s :=
  (execRxCrData_eq s).trans (rxByte_cr_of_data hdata)

/-- Settles O3: the CR is tested before the mode and the buffer's fill are looked at. -/
theorem crInDataIsDropped : Obligations.CrInDataIsDropped := by
  intro s hdata
  have hbusy : s.phase ≠ .idle := by simp [hdata]
  exact ⟨exec_rxCrData_of_data hdata, fun _ => takenByte_of_busy hbusy⟩

/-- Settles O6: the row is `append`, and a write changes the read of its own index only. -/
theorem dataByteIsStored : Obligations.DataByteIsStored := by
  intro s b hdata hetx hcr hroom
  have hexec : exec (.rxStoreData b) s = .next (append b s) :=
    (execRxStoreData_eq b s).trans (rxByte_of_room hdata hetx hcr hroom)
  exact ⟨append b s, hexec, Memory.read_write_same _ _ _, fun _ ha => Memory.read_write_other b ha, rfl⟩

/-- Settles O7: the ending of R78, with the outcome of the mode. -/
theorem fullBufferEndsCommand : Obligations.FullBufferEndsCommand := by
  intro s b hdata hetx hcr hfull
  have hexec : exec (.rxOverflowData b) s =
      .next (finish (if s.mode = .read then .overflow else .writeFailed) .discard s) :=
    (execRxOverflowData_eq b s).trans (rxByte_of_full hdata hetx hcr hfull.ge)
  refine ⟨fun hread => ?_, fun hack => ?_, exec_rxCrData_of_data hdata⟩
  · rw [hexec, if_pos hread]; rfl
  · have hread : s.mode ≠ .read := by simp [hack]
    rw [hexec, if_neg hread]; rfl

/-! ### IDLE and failed reads -/

/-- Settles O8: `rx_ready` is 0 in IDLE, so neither event can occur. -/
theorem idleTakesNoByte : Obligations.IdleTakesNoByte := by
  intro s b hidle
  have hfault : exec .rxFault s = .next s := congrArg Host.Outcome.next ((rxFaultEvent_spec s).trans (if_pos hidle))
  exact ⟨(execRxIdle_eq b s).trans (rxByte_of_idle hidle b), hfault,
    fun p => ⟨rxReady_of_idle hidle p, takenByte_of_idle hidle p⟩⟩

/-- Settles O9: outside IDLE a failed read is the ending TRANSPORT_FAULT, which discards the payload. -/
theorem failedReadEndsCommand : Obligations.FailedReadEndsCommand := by
  intro s hbusy
  have hexec : exec .rxFault s = .next (finish .transportFault .discard s) :=
    congrArg Host.Outcome.next ((rxFaultEvent_spec s).trans (if_neg hbusy))
  exact ⟨hexec, fun _ => takenByte_of_rxFault s⟩

/-! ### The ETX of a frame (R75, R76) -/

theorem endRead_of_decodeTracks_some {s : State} {pl : List Byte} {r : TrackRec × TrackRec × TrackRec}
    (hpl : payload s = some pl) (hr : decodeTracks s.params pl = some r) :
    endRead s = .next (finish .frame .keep (storeTracks r { s with scan := Scan.init })) := by
  simp only [endRead, hpl, hr]

theorem endRead_of_decodeTracks_none {s : State} {pl : List Byte} (hpl : payload s = some pl)
    (hd : decodeTracks s.params pl = none) :
    endRead s = .next (finish .decodeFault .keep { s with scan := Scan.init }) := by
  simp only [endRead, hpl, hd]

/-- Settles O4: by what the decode of the payload delivers. -/
theorem etxEndsReadFrame : Obligations.EtxEndsReadFrame := by
  intro s pl hdata hread hpl
  have hexec : exec .rxEtxDataRead s = endRead s :=
    (execRxEtxDataRead_eq s).trans (rxByte_etx_of_read hdata hread)
  exact ⟨fun _ _ _ hr => ⟨Scan.init, hexec.trans (endRead_of_decodeTracks_some hpl hr)⟩,
    fun hd => ⟨Scan.init, hexec.trans (endRead_of_decodeTracks_none hpl hd)⟩⟩

/-- R116 on written texts: the verdict is their equality, since texts of different lengths differ. -/
theorem endAck_of_written {s : State} {pl x : List Byte} (hpl : payload s = some pl) (hx : expected s = some x) :
    endAck s = .next (finish (if pl = x then .ackOk else .writeFailed) .keep s) := by
  rcases endAck_spec s with ⟨hlen, he⟩ | ⟨_, hnone, _⟩ | ⟨_, _, hnone, _⟩ | ⟨_, pl', x', hpl', hx', he⟩
  · have hne : pl ≠ x := by
      rintro rfl
      exact hlen ((payload_length hpl).symm.trans (expected_length hx))
    rw [he, if_neg hne]
  · simp [hpl] at hnone
  · simp [hx] at hnone
  · obtain rfl : pl = pl' := Option.some.inj (hpl.symm.trans hpl')
    obtain rfl : x = x' := Option.some.inj (hx.symm.trans hx')
    exact he

/-- A written expected text is what `exp` holds below `explen`. -/
theorem read_exp_of_expected {s : State} {x : List Byte} (h : expected s = some x) {i : Nat} (hi : i < s.explen) :
    Memory.read s.exp i = x[i]? := by
  obtain ⟨-, hread⟩ := (Memory.load_eq_some_iff _ _ _ _).mp h
  simpa using hread i hi

/-- Two written texts are equal when their lengths and their bytes, index by index, are. -/
theorem payload_eq_expected_iff {s : State} {pl x : List Byte} (hpl : payload s = some pl) (hx : expected s = some x) :
    pl = x ↔ s.len = s.explen ∧ ∀ i, i < s.len → Memory.read s.buf i = Memory.read s.exp i := by
  have hplLen : pl.length = s.len := payload_length hpl
  have hxLen : x.length = s.explen := expected_length hx
  constructor
  · rintro rfl
    have hlen : s.len = s.explen := hplLen.symm.trans hxLen
    exact ⟨hlen, fun i hi => (read_buf_of_payload hpl hi).trans (read_exp_of_expected hx (hlen ▸ hi)).symm⟩
  · rintro ⟨hlen, hbytes⟩
    refine List.ext_getElem? fun i => ?_
    by_cases hi : i < s.len
    · rw [← read_buf_of_payload hpl hi, hbytes i hi, read_exp_of_expected hx (hlen ▸ hi)]
    · rw [List.getElem?_eq_none (by omega), List.getElem?_eq_none (by omega)]

/-- Settles O5: the lengths and the bytes are equal exactly when the two texts are, which is what decides the outcome. -/
theorem etxComparesAcknowledgment : Obligations.EtxComparesAcknowledgment := by
  intro s pl x hdata hack hpl hx
  have hexec : exec .rxEtxDataAck s = .next (finish (if pl = x then .ackOk else .writeFailed) .keep s) :=
    (execRxEtxDataAck_eq s).trans ((rxByte_etx_of_ack hdata hack).trans (endAck_of_written hpl hx))
  rw [← payload_eq_expected_iff hpl hx, hexec]
  refine ⟨fun heq => ?_, fun hne => ?_⟩
  · rw [if_pos heq]; rfl
  · rw [if_neg hne]; rfl

/-! ### What the receive rows may write (R81) -/

/-- Settles O12: of all that a row can do, the effects of receive rows write receive state only; the others are no receive rows. -/
theorem receiveRowsWriteOnlyReceiveState : Obligations.ReceiveRowsWriteOnlyReceiveState := by
  intro i s t hrow hexec
  cases exec_effect hexec with
  | stopped hi => rcases hi with rfl | rfl <;> cases hrow
  | readStarted hi => rcases hi with rfl | rfl <;> cases hrow
  | noData x hi => rcases hi with rfl | rfl <;> cases hrow
  | writeStarted x hi => rcases hi with rfl | rfl <;> cases hrow
  | sent => cases hrow
  | resetDone => cases hrow
  | _ => exact ⟨_, rfl⟩

/-! ### Feeding bytes one after another -/

theorem respondAll_append {es : List Event} {s t : State} (fs : List Event) (h : respondAll es s = .next t) :
    respondAll (es ++ fs) s = respondAll fs t := by
  induction es generalizing s with
  | nil => cases h; rfl
  | cons e es ih =>
    simp only [respondAll] at h
    cases hrespond : respond e s with
    | next u =>
      rw [hrespond] at h
      simp only [List.cons_append, respondAll, hrespond, ih h]
    | fault r => rw [hrespond] at h; cases h
    | refused r => rw [hrespond] at h; cases h

theorem receive_append {bs : List Byte} {s t : State} (cs : List Byte) (h : receive bs s = .next t) :
    receive (bs ++ cs) s = receive cs t := by
  rw [receive, List.map_append]
  exact respondAll_append _ h

@[simp] theorem receive_nil (s : State) : receive [] s = .next s := rfl

theorem receive_singleton (b : Byte) (s : State) : receive [b] s = rxByte b s := by
  simp only [receive, List.map_cons, List.map_nil, respondAll, respond]
  cases rxByte b s <;> rfl

theorem receive_cons {b : Byte} {s t : State} (bs : List Byte) (h : rxByte b s = .next t) :
    receive (b :: bs) s = receive bs t :=
  receive_append (bs := [b]) bs ((receive_singleton b s).trans h)

/-! ### The payload function (R79) -/

/-- Bytes without an STX leave the block hunting. -/
theorem receive_of_hunt {s : State} (hhunt : s.phase = .hunt) :
    ∀ {pre : List Byte}, rawByte .STX ∉ pre → receive pre s = .next s
  | [], _ => rfl
  | b :: pre, hstx => by
    obtain ⟨hb, hpre⟩ := List.ne_and_not_mem_of_not_mem_cons hstx
    rw [receive_cons pre (rxByte_of_hunt hhunt (Ne.symm hb)), receive_of_hunt hhunt hpre]

@[simp] theorem dropCr_nil : dropCr [] = [] := rfl

@[simp] theorem dropCr_cons_cr (bs : List Byte) : dropCr (rawByte .CR :: bs) = dropCr bs := by
  simp [dropCr]

theorem dropCr_cons_of_ne {b : Byte} (bs : List Byte) (hcr : b ≠ rawByte .CR) :
    dropCr (b :: bs) = b :: dropCr bs := by
  simp [dropCr, hcr]

/-- The bytes `bs` stored one after another behind the payload (R34); `appendAll_cons` ties it to `append`. -/
def appendAll (bs : List Byte) (s : State) : State :=
  { s with buf := Memory.writeAll s.buf s.len bs, len := s.len + bs.length }

@[simp] theorem appendAll_nil (s : State) : appendAll [] s = s := rfl

theorem appendAll_cons (b : Byte) (bs : List Byte) (s : State) :
    appendAll (b :: bs) s = appendAll bs (append b s) := by
  simp only [appendAll, append, Memory.writeAll, List.length_cons, Nat.add_assoc, Nat.add_comm 1]

theorem payload_appendAll (bs : List Byte) {s : State} {pl : List Byte} (h : payload s = some pl) :
    payload (appendAll bs s) = some (pl ++ bs) := by
  induction bs generalizing s pl with
  | nil => simpa using h
  | cons b bs ih => rw [appendAll_cons, ih (payload_append b h), List.append_assoc, List.singleton_append]

/-- In DATA, bytes without an ETX are stored in order, the CRs among them dropped, while they fit. -/
theorem receive_of_data {s : State} {mid : List Byte} (hdata : s.phase = .data) (hetx : rawByte .ETX ∉ mid)
    (hfits : s.len + (dropCr mid).length ≤ s.params.payloadMax) :
    receive mid s = .next (appendAll (dropCr mid) s) := by
  induction mid generalizing s with
  | nil => rfl
  | cons b mid ih =>
    obtain ⟨hb, hmid⟩ := List.ne_and_not_mem_of_not_mem_cons hetx
    by_cases hcr : b = rawByte .CR
    · subst hcr
      rw [dropCr_cons_cr] at hfits ⊢
      rw [receive_cons mid (rxByte_cr_of_data hdata), ih hdata hmid hfits]
    · rw [dropCr_cons_of_ne mid hcr, List.length_cons] at hfits
      have hroom : s.len < s.params.payloadMax := by omega
      have hrest : (append b s).len + (dropCr mid).length ≤ (append b s).params.payloadMax := by
        simp only [append_len, append_params]; omega
      rw [receive_cons mid (rxByte_of_room hdata (Ne.symm hb) hcr hroom), ih (s := append b s) hdata hmid hrest,
        dropCr_cons_of_ne mid hcr, appendAll_cons]

theorem payload_openFrame (s : State) : payload (openFrame s) = some [] := rfl

/-- From HUNT: the bytes before the STX are passed over, those behind it are stored in an empty buffer. -/
theorem receive_frame {s : State} {pre mid : List Byte} (hhunt : s.phase = .hunt) (hpre : rawByte .STX ∉ pre)
    (hmid : rawByte .ETX ∉ mid) (hfits : (dropCr mid).length ≤ s.params.payloadMax) :
    receive (pre ++ rawByte .STX :: mid) s = .next (appendAll (dropCr mid) (openFrame s)) := by
  have hroom : (openFrame s).len + (dropCr mid).length ≤ (openFrame s).params.payloadMax := by
    simpa using hfits
  rw [receive_append _ (receive_of_hunt hhunt hpre), receive_cons mid (rxByte_stx_of_hunt hhunt),
    receive_of_data (openFrame_phase s) hmid hroom]

/-- Settles O11: the stream up to the ETX is `receive_frame`, and the rows of both modes respond to the ETX behind it. -/
theorem receivedFrameIsItsPayload : Obligations.ReceivedFrameIsItsPayload := by
  intro s pre mid hhunt hpre hmid hfits
  have hframe : receive (pre ++ 0x02#8 :: mid) s = .next (appendAll (dropCr mid) (openFrame s)) :=
    receive_frame hhunt hpre hmid hfits
  refine ⟨receive_of_hunt hhunt hpre, appendAll (dropCr mid) (openFrame s), hframe, ?_, ?_, ?_⟩
  · exact payload_appendAll _ (payload_openFrame s)
  · simp [appendAll, openFrame]
  · rw [receive_append _ hframe, receive_singleton]
    split
    · exact (execRxEtxDataRead_eq _).symm
    · exact (execRxEtxDataAck_eq _).symm

end Sys2Proof.Machine

/-! TrackDecoder: `split`, the extractions and the decode of three records (41_track_decoder.md R91 to R105), and the
track-layer rows one at a time. -/

namespace Sys2Proof.Machine

/-! ### `split` is the library's split at a separator (R95) -/

theorem split_ne_nil (l : List Byte) (c : Byte) : split l c ≠ [] := by
  cases l with
  | nil => simp [split]
  | cons b bs =>
    simp only [split]
    split
    · simp
    · split <;> simp

/-- A byte that is no separator joins the first segment of the rest. -/
theorem split_cons (b : Byte) (bs : List Byte) (c : Byte) :
    split (b :: bs) c = if b = c then [] :: split bs c else (split bs c).modifyHead (b :: ·) := by
  obtain ⟨f, fs, hfs⟩ := List.exists_cons_of_ne_nil (split_ne_nil bs c)
  simp only [split, hfs, List.modifyHead_cons]

theorem split_eq_splitOn (l : List Byte) (c : Byte) : split l c = l.splitOn c := by
  induction l with
  | nil => rw [List.splitOn_nil, split]
  | cons b bs ih => simp only [split_cons, List.splitOn_cons_eq_if_modifyHead, beq_iff_eq, ih]

theorem not_mem_of_mem_split {l : List Byte} {c : Byte} : ∀ f ∈ split l c, c ∉ f := by
  induction l with
  | nil => simp [split]
  | cons b bs ih =>
    rw [split_cons]
    split
    · simpa using ih
    · next hne =>
      obtain ⟨f, fs, hfs⟩ := List.exists_cons_of_ne_nil (split_ne_nil bs c)
      rw [hfs] at ih ⊢
      obtain ⟨hf, hrest⟩ := List.forall_mem_cons.mp ih
      exact List.forall_mem_cons.mpr ⟨List.not_mem_cons_of_ne_of_not_mem (Ne.symm hne) hf, hrest⟩

/-- One segment more than there are separators. -/
theorem length_split (l : List Byte) (c : Byte) : (split l c).length = l.count c + 1 := by
  induction l with
  | nil => rfl
  | cons b bs ih =>
    rw [split_cons]
    split
    · next heq => rw [heq, List.count_cons_self, List.length_cons, ih]
    · next hne => rw [List.length_modifyHead, ih, List.count_cons_of_ne hne]

/-- Settles O16: both directions of the joining are the library's, for `splitOn`. -/
theorem splitIsTheUniqueSegmentation : Obligations.SplitIsTheUniqueSegmentation := by
  intro l c
  refine ⟨not_mem_of_mem_split, ?_, length_split l c, ?_⟩
  · rw [split_eq_splitOn, List.intercalate_splitOn]
  · rintro fs hne hfree rfl
    rw [split_eq_splitOn, List.splitOn_intercalate c hfree hne]

/-! ### The end-byte search (R92) -/

theorem firstIndex_eq_idxOf? (c : Byte) (l : List Byte) : firstIndex c l = l.idxOf? c := by
  induction l with
  | nil => rfl
  | cons b bs ih => simp only [firstIndex, List.idxOf?_cons, beq_iff_eq, ih]

theorem findEnd_eq_none_iff {n : TrackNo} {pl : List Byte} {p : Nat} :
    findEnd n pl p = none ↔ ∀ i, p ≤ i → pl[i]? ≠ some (endByte n) := by
  simp only [findEnd, Option.map_eq_none_iff, firstIndex_eq_idxOf?, List.idxOf?_eq_none_iff, List.mem_iff_getElem?,
    List.getElem?_drop, not_exists]
  constructor
  · intro h i hi
    have := h (i - p)
    rwa [Nat.add_sub_cancel' hi] at this
  · exact fun h i => h (p + i) (Nat.le_add_right p i)

/-- The search finds the first end byte at or after the cursor. -/
theorem getElem?_of_findEnd {n : TrackNo} {pl : List Byte} {p e : Nat} (h : findEnd n pl p = some e) :
    p ≤ e ∧ pl[e]? = some (endByte n) ∧ ∀ i, p ≤ i → i < e → pl[i]? ≠ some (endByte n) := by
  obtain ⟨j, hj, rfl⟩ := Option.map_eq_some_iff.mp h
  rw [firstIndex_eq_idxOf?, List.idxOf?_eq_some_iff] at hj
  obtain ⟨hlen, hget, hbefore⟩ := hj
  refine ⟨Nat.le_add_left p j, ?_, fun i hpi hij hi => ?_⟩
  · rw [Nat.add_comm, ← List.getElem?_drop, List.getElem?_eq_getElem hlen, hget]
  · refine hbefore (i - p) (by omega) (List.getElem_eq_iff _ |>.mpr ?_)
    rw [List.getElem?_drop, Nat.add_sub_cancel' hpi, hi]

/-! ### What each answer of `extract` says (R91 to R98) -/

section
variable {skip p : Nat} {n : TrackNo} {pl : List Byte}

theorem extract_eq_absent_iff {p' : Nat} :
    extract skip n pl p = .absent p' ↔ p' = p ∧ (pl[p]? = some (startByte n) → findEnd n pl p = none) := by
  by_cases hstart : pl[p]? = some (startByte n)
  · cases hfind : findEnd n pl p with
    | none => simp [extract, hstart, hfind, eq_comm]
    | some e =>
      simp only [extract, hstart, hfind, ne_eq, not_true, if_false]
      split <;> simp
  · simp [extract_of_no_start skip hstart, hstart, eq_comm]

theorem extract_eq_present {lo hi nf p' : Nat} (h : extract skip n pl p = .present lo hi nf p') :
    pl[p]? = some (startByte n) ∧ findEnd n pl p = some hi ∧ lo = min (p + 1 + skip) hi ∧ p' = hi + 1 ∧
      nf = 1 + (slice pl lo hi).count (sepByte n) ∧ ∀ b ∈ slice pl lo hi, isAscii b = true := by
  simp only [extract] at h
  split at h
  · cases h
  · next hstart =>
    split at h
    · cases h
    · next e hfind =>
      split at h
      · cases h
      · next hclean =>
        cases h
        exact ⟨not_not.mp hstart, hfind, rfl, rfl, rfl, by simpa using hclean⟩

/-- R96: a fault names a byte of the payload. -/
theorem exists_not_isAscii_of_extract_eq_fault (h : extract skip n pl p = .fault) : ∃ b ∈ pl, isAscii b = false := by
  simp only [extract] at h
  split at h
  · cases h
  · split at h
    · cases h
    · split at h
      · next hmarked =>
        obtain ⟨b, hb, hbad⟩ := List.any_eq_true.mp hmarked
        exact ⟨b, List.mem_of_mem_drop (List.mem_of_mem_take hb), by simpa using hbad⟩
      · cases h

end

/-- Settles O15: the end-byte search fails exactly when no end byte stands at or after the cursor. -/
theorem absentTrackKeepsCursor : Obligations.AbsentTrackKeepsCursor := fun k n pl p p' => by
  rw [extract_eq_absent_iff, findEnd_eq_none_iff]

/-- Settles O14: the search's end byte is behind the start byte because the two bytes differ; the bounds follow. -/
theorem presentTrackIsDelimited : Obligations.PresentTrackIsDelimited := by
  intro k n pl p lo hi nf p' h
  obtain ⟨hstart, hfind, hlo, hp', hnf, hascii⟩ := extract_eq_present h
  obtain ⟨hle, hend, hfirst⟩ := getElem?_of_findEnd hfind
  have hne : p ≠ hi := by
    rintro rfl
    exact startByte_ne_endByte n (Option.some.inj (hstart.symm.trans hend))
  have hcount : (slice pl lo hi).count (sepByte n) ≤ hi - lo :=
    List.count_le_length.trans (length_slice_le pl lo hi)
  have hsegments : nf = (split (slice pl lo hi) (sepByte n)).length := by rw [length_split, hnf, Nat.add_comm]
  exact ⟨hstart, hend, by omega, hfirst, hlo, by omega, by omega, findEnd_lt_length hfind, hp', hnf, by omega,
    hsegments, hascii⟩

/-! ### The decode as three extractions (R99, R100) -/

/-- Three extractions that do not fault, each at the cursor the one before it leaves. -/
theorem decodeTracks_of_cursors {q : Params} {pl : List Byte} {p1 p2 p3 : Nat}
    (h1 : (extract (skipOf q .one) .one pl 0).cursor = some p1)
    (h2 : (extract (skipOf q .two) .two pl p1).cursor = some p2)
    (h3 : (extract (skipOf q .three) .three pl p2).cursor = some p3) :
    decodeTracks q pl = some ((extract (skipOf q .one) .one pl 0).record, (extract (skipOf q .two) .two pl p1).record,
      (extract (skipOf q .three) .three pl p2).record) := by
  simp only [decodeTracks, h1, h2, h3]

theorem Extracted.exists_cursor_of_ne_fault {x : Extracted} (h : x ≠ .fault) : ∃ p, x.cursor = some p := by
  cases x with
  | absent p => exact ⟨p, rfl⟩
  | present lo hi nf p => exact ⟨p, rfl⟩
  | fault => exact absurd rfl h

/-- Settles O18: only the track itself has its start byte at the cursor, and it has no end byte there. -/
theorem missingEndByteHidesLaterTracks : Obligations.MissingEndByteHidesLaterTracks := by
  intro q n pl p hstart hend
  have habsent : ∀ m, extract (skipOf q m) m pl p = .absent p := fun m => by
    refine (absentTrackKeepsCursor _ m pl p p).mpr ⟨rfl, fun hm => ?_⟩
    obtain rfl : n = m := startByte_injective (Option.some.inj (hstart.symm.trans hm))
    exact hend
  have hcursor : ∀ m, (extract (skipOf q m) m pl p).cursor = some p := fun m => by rw [habsent m]; rfl
  refine ⟨habsent, ?_⟩
  rintro - rfl
  rw [decodeTracks_of_cursors (hcursor _) (hcursor _) (hcursor _), habsent, habsent, habsent]
  rfl

/-- Settles O19: an extraction that faults names a byte >= 0x80 of the payload. -/
theorem asciiPayloadNeverFaults : Obligations.AsciiPayloadNeverFaults := by
  intro q pl hascii
  have hcursor : ∀ m p, ∃ p', (extract (skipOf q m) m pl p).cursor = some p' := fun m p => by
    refine Extracted.exists_cursor_of_ne_fault fun hfault => ?_
    obtain ⟨b, hb, hbad⟩ := exists_not_isAscii_of_extract_eq_fault hfault
    simp [hascii b hb] at hbad
  obtain ⟨p1, h1⟩ := hcursor .one 0
  obtain ⟨p2, h2⟩ := hcursor .two p1
  obtain ⟨p3, h3⟩ := hcursor .three p2
  exact ⟨_, _, _, decodeTracks_of_cursors h1 h2 h3⟩

/-! ### Records written one after another (30_encoding.md R48, R104) -/

theorem drop_length_append_record (n : TrackNo) (pre post lead body : List Byte) :
    (pre ++ recordBytes n (some (lead, body)) ++ post).drop pre.length =
      startByte n :: ((lead ++ body) ++ endByte n :: post) := by
  simp [recordBytes, List.append_assoc]

/-- The descriptor of a record, wherever it stands, delimits the record's body. -/
theorem slice_recordDescriptor (n : TrackNo) (pre post lead body : List Byte) :
    slice (pre ++ recordBytes n (some (lead, body)) ++ post) (recordDescriptor n pre.length (some (lead, body))).lo
      (recordDescriptor n pre.length (some (lead, body))).hi = body := by
  have hslice := slice_record lead.length (drop_length_append_record n pre post lead body)
  rw [List.drop_left, List.length_append, ← Nat.add_assoc, Nat.min_eq_left (Nat.le_add_right _ _)] at hslice
  exact hslice

theorem length_append_recordBytes (n : TrackNo) (pre lead body : List Byte) :
    (pre ++ recordBytes n (some (lead, body))).length = pre.length + 1 + (lead ++ body).length + 1 := by
  simp only [recordBytes, List.length_append, List.length_cons, List.length_nil]
  omega

/-- One extraction at a record, or at the place of a record that is not there: its descriptor, and the cursor behind it. -/
theorem extract_recordBytes {q : Params} {n : TrackNo} {o : Option (List Byte × List Byte)} (pre : List Byte)
    {post : List Byte} (hlegal : recordLegal q n o) (hpost : post.head? ≠ some (startByte n)) :
    (extract (skipOf q n) n (pre ++ recordBytes n o ++ post) pre.length).record = recordDescriptor n pre.length o ∧
      (extract (skipOf q n) n (pre ++ recordBytes n o ++ post) pre.length).cursor =
        some (pre ++ recordBytes n o).length := by
  cases o with
  | none =>
    have hstart : (pre ++ recordBytes n none ++ post)[pre.length]? ≠ some (startByte n) := by
      rwa [← List.head?_drop, recordBytes, List.append_nil, List.drop_left]
    rw [extract_of_no_start _ hstart, recordBytes, List.append_nil]
    exact ⟨rfl, rfl⟩
  | some record =>
    obtain ⟨lead, body⟩ := record
    obtain ⟨hskip, hlead, hascii, hbody⟩ := hlegal
    have hclean : ¬ body.any (fun b => !isAscii b) = true := by simpa using hascii
    rw [← hskip, extract_of_record lead.length (drop_length_append_record n pre post lead body) (by simp [hlead, hbody]),
      List.drop_left, if_neg hclean, length_append_recordBytes]
    refine ⟨?_, rfl⟩
    simp only [Extracted.record, recordDescriptor, length_split, List.length_append, TrackRec.mk.injEq, true_and]
    omega

/-- What stands at the place of a record that is not there does not look like it: the records that follow are of other
tracks. -/
theorem head?_recordBytes_append_ne {m n : TrackNo} {post : List Byte} (hmn : m ≠ n) (o : Option (List Byte × List Byte))
    (hpost : post.head? ≠ some (startByte n)) : (recordBytes m o ++ post).head? ≠ some (startByte n) := by
  cases o with
  | none => exact hpost
  | some record => exact fun h => hmn (startByte_injective (Option.some.inj h))

/-- Settles O17: each of the three extractions meets its record, or the start byte of a later track, or the end of the
payload. -/
theorem anySubsetOfRecordsDecodes : Obligations.AnySubsetOfRecordsDecodes := by
  intro q o1 o2 o3 hlegal1 hlegal2 hlegal3
  refine ⟨?_, slice_recordDescriptor⟩
  have hempty : ∀ n, ([] : List Byte).head? ≠ some (startByte n) := by simp
  have hpost2 : (recordBytes .three o3 ++ []).head? ≠ some (startByte .two) :=
    head?_recordBytes_append_ne (by decide) o3 (hempty _)
  have hpost1 : (recordBytes .two o2 ++ (recordBytes .three o3 ++ [])).head? ≠ some (startByte .one) :=
    head?_recordBytes_append_ne (by decide) o2 (head?_recordBytes_append_ne (by decide) o3 (hempty _))
  obtain ⟨hrec1, hcur1⟩ := extract_recordBytes [] hlegal1 hpost1
  obtain ⟨hrec2, hcur2⟩ := extract_recordBytes (recordBytes .one o1) hlegal2 hpost2
  obtain ⟨hrec3, hcur3⟩ := extract_recordBytes (recordBytes .one o1 ++ recordBytes .two o2) hlegal3 (hempty .three)
  simp only [List.append_nil, List.nil_append, List.append_assoc, List.length_nil] at hrec1 hcur1 hrec2 hcur2 hrec3 hcur3 ⊢
  rw [decodeTracks_of_cursors hcur1 hcur2 hcur3, hrec1, hrec2, hrec3]

/-! ### The track-layer rows at each place of the scan (R91 to R100, log 9) -/

theorem exec_startRow (n : TrackNo) (s : State) : exec (startRow n) s = .next (trackByte (startByte n) s) := by
  cases n <;> rfl

theorem exec_sepRow (n : TrackNo) (s : State) : exec (sepRow n) s = .next (trackByte (sepByte n) s) := by
  cases n <;> rfl

theorem exec_endRow (n : TrackNo) (s : State) : exec (endRow n) s = .next (trackByte (endByte n) s) := by
  cases n <;> rfl

/-- The start byte of track `k` opens its record unless track `k` has been passed (R91, R99). -/
theorem startsFrom_startByte (n k : TrackNo) :
    startsFrom n (startByte k) = if trackNumber n ≤ trackNumber k then some k else none := by
  cases n <;> cases k <;> rfl

/-- Settles O20: by the place where the scan stands. -/
theorem startByteOpensRecord : Obligations.StartByteOpensRecord := by
  intro s k
  rw [exec_startRow]
  refine ⟨fun n hpos hle => ?_, fun n hpos hlt => ?_, ?_⟩
  · simp only [trackByte, Scan.byte, hpos, startsFrom_startByte, if_pos hle]
  · simp only [trackByte, Scan.byte, hpos, startsFrom_startByte, if_neg (Nat.not_le.mpr hlt)]
  · rintro (hpos | hpos) <;> simp only [trackByte, Scan.byte, hpos]

/-- Settles O21: the end byte is the only one looked for below the body. -/
theorem reservedPositionIsPassedOver : Obligations.ReservedPositionIsPassedOver := by
  intro s n p nf bad b hpos hreserved hend
  simp only [exec_trackRow, trackByte, Scan.byte, hpos, if_neg hend, if_pos hreserved]

/-- Past the reserved positions every byte but the end byte is counted and checked (R95, R96). -/
theorem Scan.byte_body_of_le {q : Params} {n : TrackNo} {p nf : Nat} {bad : Bool} {b : Byte} {sc : Scan}
    (hpos : sc.pos = .body n p nf bad) (hbody : p + 1 + skipOf q n ≤ sc.idx) (hend : endByte n ≠ b) :
    sc.byte q b =
      { sc with pos := .body n p (nf + [b].count (sepByte n)) (bad || !isAscii b), idx := sc.idx + 1 } := by
  rw [Scan.byte_body hend hpos, Nat.sub_eq_zero_of_le hbody, List.drop_zero, List.any_cons, List.any_nil, Bool.or_false]

/-- Settles O22: a separator is an ASCII byte of the body. -/
theorem separatorAddsField : Obligations.SeparatorAddsField := by
  intro s n p nf bad hpos hbody
  obtain ⟨-, -, hsepEnd⟩ := delimitersAreDistinct.1 n
  rw [exec_sepRow, trackByte, Scan.byte_body_of_le hpos hbody hsepEnd.symm]
  simp only [List.count_singleton_self, isAscii_sepByte, Bool.not_true, Bool.or_false]

/-- Settles O24: a byte >= 0x80 is neither the separator nor the end byte. -/
theorem nonAsciiByteMarksBody : Obligations.NonAsciiByteMarksBody := by
  intro s n p nf bad b hpos hbody hbad
  have hne : ∀ {c : Byte}, isAscii c = true → c ≠ b := fun hc heq => by simp [heq, hbad] at hc
  rw [← trackRow_of_not_isAscii hbad, exec_trackRow, trackByte,
    Scan.byte_body_of_le hpos hbody (hne (isAscii_endByte n)),
    List.count_eq_zero_of_not_mem (by simpa using hne (isAscii_sepByte n)), hbad]
  simp only [Nat.add_zero, Bool.not_false, Bool.or_true]

/-- R100: a fault delivers no track. -/
theorem Scan.close_trk_of_bad (q : Params) (n : TrackNo) (p nf : Nat) (sc : Scan) (m : TrackNo) :
    (sc.close q n p nf true).trk m = .absent := by
  cases m <;> rfl

/-- R94, R97, R98: a clean record gives its own track the descriptor and leaves the others. -/
theorem Scan.close_trk (q : Params) (n : TrackNo) (p nf : Nat) (sc : Scan) (m : TrackNo) :
    (sc.close q n p nf false).trk m =
      if m = n then { present := true, lo := min (p + 1 + skipOf q n) sc.idx, hi := sc.idx, nf := nf }
      else sc.trk m := by
  cases n <;> cases m <;> rfl

/-- Settles O23: by whether the body is marked. -/
theorem endByteClosesRecord : Obligations.EndByteClosesRecord := by
  intro s n p nf bad hpos
  refine ⟨s.scan.close s.params n p nf bad, ?_, ?_⟩
  · rw [exec_endRow, trackByte, Scan.byte_endByte hpos]
  · cases bad with
    | true => exact ⟨rfl, fun _ => ⟨rfl, Scan.close_trk_of_bad _ _ _ _ _⟩, nofun⟩
    | false =>
      exact ⟨Scan.close_idx _ _ _ _ _, nofun, fun _ =>
        ⟨Scan.close_pos _ _ _ _ _, by rw [Scan.close_trk, if_pos rfl],
          fun m hmn => by rw [Scan.close_trk, if_neg hmn]⟩⟩

end Sys2Proof.Machine

/-! WriteProtocol (42_write_protocol.md R110 to R121): the trim of the text, the three answers to a write command, the
acknowledgment of a write, and how a write transaction ends. -/

namespace Sys2Proof.Machine

/-! ### The trimmed text (R111) -/

theorem isWhitespace_iff (b : Byte) :
    isWhitespace b = true ↔ b ∈ [0x09#8, 0x0A#8, 0x0B#8, 0x0C#8, 0x0D#8, 0x20#8] := by
  simp [isWhitespace, or_assoc]

/-- `trim` in the library's terms: the leading run is dropped, then the trailing one. -/
theorem trim_eq_rdropWhile (t : List Byte) : trim t = (t.dropWhile isWhitespace).rdropWhile isWhitespace := rfl

/-- What `trim` takes away stands around the trimmed text. -/
theorem takeWhile_append_trim_append_rtakeWhile (t : List Byte) :
    t.takeWhile isWhitespace ++ trim t ++ (t.dropWhile isWhitespace).rtakeWhile isWhitespace = t := by
  rw [trim_eq_rdropWhile, List.append_assoc, List.rdropWhile_append_rtakeWhile, List.takeWhile_append_dropWhile]

/-- The trimmed text begins where the leading whitespace ends. -/
theorem not_isWhitespace_of_mem_head?_trim {t : List Byte} {x : Byte} (hx : x ∈ (trim t).head?) :
    isWhitespace x = false := by
  obtain ⟨rest, hrest⟩ : trim t <+: t.dropWhile isWhitespace := List.rdropWhile_prefix _ _
  have hhead : (t.dropWhile isWhitespace).head? = some x := by
    rw [← hrest, List.head?_append, hx, Option.some_or]
  rw [← List.find?_not_eq_head?_dropWhile] at hhead
  simpa using List.find?_some hhead

theorem not_isWhitespace_of_mem_getLast?_trim {t : List Byte} {x : Byte} (hx : x ∈ (trim t).getLast?) :
    isWhitespace x = false := by
  have hne : trim t ≠ [] := by
    intro hnil
    simp [hnil] at hx
  have hlast : (trim t).getLast hne = x := List.getLast_of_getLast?_eq_some hx
  exact hlast ▸ Bool.eq_false_iff.mpr (List.rdropWhile_last_not isWhitespace (t.dropWhile isWhitespace) hne)

theorem trim_eq_nil_iff (t : List Byte) : trim t = [] ↔ ∀ x ∈ t, isWhitespace x = true := by
  rw [trim_eq_rdropWhile, List.rdropWhile_eq_nil_iff]
  refine ⟨fun hrest x hx => ?_, fun hall x hx => hall x ((List.dropWhile_suffix isWhitespace).subset hx)⟩
  rw [← List.takeWhile_append_dropWhile (p := isWhitespace) (l := t)] at hx
  exact (List.mem_append.mp hx).elim List.mem_takeWhile_imp (hrest x)

/-- Settles O27: the text is cut into leading whitespace, trimmed text and trailing whitespace. -/
theorem trimRemovesSurroundingWhitespace : Obligations.TrimRemovesSurroundingWhitespace :=
  ⟨isWhitespace_iff, fun t =>
    ⟨⟨_, _, (takeWhile_append_trim_append_rtakeWhile t).symm, fun _ => List.mem_takeWhile_imp,
        fun _ => List.mem_rtakeWhile_imp⟩,
      fun _ => not_isWhitespace_of_mem_head?_trim, fun _ => not_isWhitespace_of_mem_getLast?_trim, trim_eq_nil_iff t⟩⟩

/-! ### The answers to a write command (R110 to R115) -/

theorem exec_cmdWrite_of_idle {s : State} (hidle : s.phase = .idle) (t : List Byte) :
    exec (.cmdWrite t) s = startWrite t s :=
  if_pos hidle

/-- The write event and the CMD_WRITE row have one meaning. -/
theorem respond_cmdWrite (t : List Byte) (s : State) : respond (.cmdWrite t) s = exec (.cmdWrite t) s := rfl

/-- The state a write command of the trimmed text `x` leaves: the text stored and sent, the acknowledgment awaited (R113 to
R115); `exec_cmdWrite_of_text` ties it to the row. -/
def awaitingAck (x : List Byte) (s : State) : State :=
  { transmit (writeFrames x) (storeExpected x (beginCommand .ack s)) with phase := .hunt }

theorem expected_awaitingAck (x : List Byte) (s : State) : expected (awaitingAck x s) = some x :=
  expected_storeExpected x (beginCommand .ack s)

/-- Storing a text writes no index from its length on. -/
theorem read_exp_awaitingAck {x : List Byte} {a : Nat} (ha : x.length ≤ a) (s : State) :
    Memory.read (awaitingAck x s).exp a = Memory.read s.exp a := by
  have hread := Memory.read_writeAll x s.exp 0 a
  rwa [if_neg (by omega)] at hread

section
variable {s : State} {t : List Byte} (hidle : s.phase = .idle)
include hidle

theorem exec_cmdWrite_of_tooLong (hlong : s.params.wtextMax < t.length) :
    exec (.cmdWrite t) s = .refused .writeTextTooLong :=
  (exec_cmdWrite_of_idle hidle t).trans (if_pos hlong)

theorem exec_cmdWrite_of_empty (hfits : t.length ≤ s.params.wtextMax) (hempty : trim t = []) :
    exec (.cmdWrite t) s = .next (finish .noData .discard { beginCommand .ack s with explen := 0 }) := by
  simp only [exec_cmdWrite_of_idle hidle, startWrite, if_neg (Nat.not_lt.mpr hfits), if_pos hempty]

theorem exec_cmdWrite_of_text (hfits : t.length ≤ s.params.wtextMax) (htext : trim t ≠ []) :
    exec (.cmdWrite t) s = .next (awaitingAck (trim t) s) := by
  simp only [exec_cmdWrite_of_idle hidle, startWrite, if_neg (Nat.not_lt.mpr hfits), if_neg htext, awaitingAck]

end

/-- Settles O28: the awaiting state, field by field. -/
theorem writeCommandSendsText : Obligations.WriteCommandSendsText := fun s _ hidle hfits htext =>
  ⟨_, exec_cmdWrite_of_text hidle hfits htext, expected_awaitingAck _ s, fun _ ha => read_exp_awaitingAck ha s, rfl⟩

/-- Settles O29: the ending NO_DATA of the begun command; its discard finds nothing left to discard. -/
theorem emptyTextGivesNoData : Obligations.EmptyTextGivesNoData := fun _ _ => exec_cmdWrite_of_empty

/-- Settles O30: the length is tested before anything else. -/
theorem overlongTextIsRefused : Obligations.OverlongTextIsRefused := fun _ _ => exec_cmdWrite_of_tooLong

/-! ### What is transmitted (R113, R114) -/

/-- Settles O49: of all that a row can do, only a started write and OP_RAW_WRITE transmit, each the two frames of its text. -/
theorem transmissionIsOneAppendedAction : Obligations.TransmissionIsOneAppendedAction := by
  intro i s t hexec htx
  cases exec_effect hexec with
  | writeStarted x hi _ _ htext => exact ⟨⟨trim x, htext, rfl⟩, .inr (hi.imp (⟨x, ·⟩) (⟨x, ·⟩))⟩
  | sent x _ htext => exact ⟨⟨x, htext, rfl⟩, .inl rfl⟩
  | _ => exact absurd rfl htx

/-! ### The acknowledgment (R116, R121) -/

theorem respondAll_cons {e : Event} {s t : State} (es : List Event) (h : respond e s = .next t) :
    respondAll (e :: es) s = respondAll es t := by
  simp only [respondAll, h]

theorem dropCr_of_not_mem {bs : List Byte} (hcr : rawByte .CR ∉ bs) : dropCr bs = bs :=
  List.filter_eq_self.mpr fun _ hb => bne_iff_ne.mpr fun h => hcr (h ▸ hb)

/-- A whole acknowledgment frame that fits the buffer ends the write: its payload is compared with the expected text, which no
received byte touches. -/
theorem receive_ackFrame {s : State} {x pre mid : List Byte} (hhunt : s.phase = .hunt) (hack : s.mode = .ack)
    (hx : expected s = some x) (hpre : rawByte .STX ∉ pre) (hmid : rawByte .ETX ∉ mid)
    (hfits : (dropCr mid).length ≤ s.params.payloadMax) :
    receive (pre ++ rawByte .STX :: mid ++ [rawByte .ETX]) s =
      .next (finish (if dropCr mid = x then .ackOk else .writeFailed) .keep (appendAll (dropCr mid) (openFrame s))) := by
  have hpayload : payload (appendAll (dropCr mid) (openFrame s)) = some (dropCr mid) :=
    payload_appendAll _ (payload_openFrame s)
  have hexpected : expected (appendAll (dropCr mid) (openFrame s)) = some x := hx
  rw [receive_append _ (receive_frame hhunt hpre hmid hfits), receive_singleton,
    rxByte_etx_of_ack (s := appendAll (dropCr mid) (openFrame s)) rfl hack, endAck_of_written hpayload hexpected]

/-- Settles O32: the command leaves the block awaiting the text, and an echo of its length fits the buffer, since
`WTEXT_MAX <= PAYLOAD_MAX`. -/
theorem echoDecidesTheWrite : Obligations.EchoDecidesTheWrite := by
  rintro s t y ⟨-, -, hcapacity⟩ hidle hfits htext - hlen hclean
  have hetx : rawByte .ETX ∉ y := fun h => (hclean _ h).2.1 rfl
  have hcr : rawByte .CR ∉ y := fun h => (hclean _ h).2.2 rfl
  have hdrop : dropCr y = y := dropCr_of_not_mem hcr
  have hroom : (dropCr y).length ≤ s.params.payloadMax := by
    have htrim := length_trim_le t
    rw [hdrop]; omega
  have hwrite : respond (.cmdWrite t) s = .next (awaitingAck (trim t) s) :=
    (respond_cmdWrite t s).trans (exec_cmdWrite_of_text hidle hfits htext)
  have hecho := receive_ackFrame (s := awaitingAck (trim t) s) (pre := []) rfl rfl (expected_awaitingAck _ s)
    List.not_mem_nil hetx hroom
  rw [hdrop] at hecho
  refine ⟨_, (respondAll_cons _ hwrite).trans hecho, rfl, ?_, rfl⟩
  rw [payload_finish_keep, payload_appendAll _ (payload_openFrame _), List.nil_append]

/-! ### How a write transaction ends (R117 to R120) -/

/-- What a row can do to a running write: leave it running, end it in one of the four ways of R118, or wipe it. -/
theorem ExecEffect.of_running_write {i : Instr} {s t : State} (he : ExecEffect i s t) (hbusy : s.phase ≠ .idle)
    (hack : s.mode = .ack) (hnone : s.outcome = .none) :
    (t.phase ≠ .idle ∧ t.mode = .ack ∧ t.outcome = .none) ∨
    (t.phase = .idle ∧ t.mode = .ack ∧ t.outcome ∈ [.ackOk, .writeFailed, .transportFault, .stopped]) ∨
    t = resetState s := by
  cases he with
  | stays => exact .inl ⟨hbusy, hack, hnone⟩
  | opened => exact .inl ⟨nofun, hack, hnone⟩
  | stored => exact .inl ⟨hbusy, hack, hnone⟩
  | sent => exact .inl ⟨hbusy, hack, hnone⟩
  | scanned => exact .inl ⟨hbusy, hack, hnone⟩
  | overflowed => exact .inr (.inl ⟨rfl, hack, by simp [hack]⟩)
  | lengthDiffers => exact .inr (.inl ⟨rfl, hack, by simp⟩)
  | compared => exact .inr (.inl ⟨rfl, hack, by simp only [finish_outcome]; split <;> simp⟩)
  | transportFailed => exact .inr (.inl ⟨rfl, hack, by simp⟩)
  | stopped => exact .inr (.inl ⟨rfl, hack, by simp⟩)
  | decodeFaulted _ _ _ hread => simp [hack] at hread
  | framed _ _ _ _ hread => simp [hack] at hread
  | readStarted _ hidle => exact absurd hidle hbusy
  | noData _ _ hidle => exact absurd hidle hbusy
  | writeStarted _ _ hidle => exact absurd hidle hbusy
  | resetDone => exact .inr (.inr rfl)

/-- Settles O33: a step does to a running write what its row does; taking an input touches nothing of it. -/
theorem writeEndsInOneOfFourOutcomes : Obligations.WriteEndsInOneOfFourOutcomes := by
  intro s t hbusy hack hnone hstep
  rcases step_effect hstep with ⟨-, rfl⟩ | ⟨inp, rest, i, -, -, he⟩
  · exact .inl ⟨hbusy, hack, hnone⟩
  · rcases he.of_running_write (s := { s with inputs := rest }) hbusy hack hnone with hrun | hended | rfl
    · exact .inl hrun
    · exact .inr (.inl hended)
    · exact .inr (.inr rfl)

end Sys2Proof.Machine

/-! ConstantsTable (43_constants_table.md R130, 20_memory.md R33): a lookup of a control byte has no side effect. -/

namespace Sys2Proof.Machine

@[simp] theorem exec_stx (s : State) : exec .stx s = .next s := rfl

@[simp] theorem exec_etx (s : State) : exec .etx s = .next s := rfl

@[simp] theorem exec_cr (s : State) : exec .cr s = .next s := rfl

/-- Settles O36, row by row. -/
theorem constantRowsChangeNothing : Obligations.ConstantRowsChangeNothing :=
  fun s => ⟨exec_stx s, exec_etx s, exec_cr s⟩

end Sys2Proof.Machine

/-! Host control (44_host_control.md R135 to R138): a read command and how it ends, a command or a cancel by phase. -/

namespace Sys2Proof.Machine

/-! ### A command while one runs (R136) -/

section
variable {s : State} (hbusy : s.phase ≠ .idle)
include hbusy

theorem exec_cmdRead_of_busy : exec .cmdRead s = .next s :=
  if_neg hbusy

theorem exec_cmdWrite_of_busy (t : List Byte) : exec (.cmdWrite t) s = .next s :=
  if_neg hbusy

theorem exec_cmdWhileBusy_of_busy (c : BusyCmd) : exec (.cmdWhileBusy c) s = .next s :=
  if_neg hbusy

end

@[simp] theorem exec_cmdNone (s : State) : exec .cmdNone s = .next s := rfl

@[simp] theorem exec_cmdReserved (s : State) : exec .cmdReserved s = .next s := rfl

/-- Settles O38: the commands are guarded by IDLE; the other two values of `cmd` are no command at all. -/
theorem commandWhileBusyIsIgnored : Obligations.CommandWhileBusyIsIgnored :=
  ⟨fun _ c t hbusy => ⟨exec_cmdWhileBusy_of_busy hbusy c, exec_cmdRead_of_busy hbusy, exec_cmdWrite_of_busy hbusy t⟩,
   fun s => ⟨exec_cmdReserved s, exec_cmdNone s⟩⟩

/-! ### Cancel (R137, R138) -/

theorem cancelEvent_of_idle {s : State} (hidle : s.phase = .idle) : cancelEvent s = s :=
  (cancelEvent_spec s).trans (if_pos hidle)

theorem cancelEvent_of_busy {s : State} (hbusy : s.phase ≠ .idle) : cancelEvent s = finish .stopped .discard s :=
  (cancelEvent_spec s).trans (if_neg hbusy)

theorem exec_cancel (s : State) : exec .cancel s = .next (cancelEvent s) := rfl

theorem exec_cancelIdle (s : State) : exec .cancelIdle s = .next (cancelEvent s) :=
  execCancelIdle_eq s

/-- A cancel takes `rx_ready` away in its own cycle. -/
theorem takenByte_of_cancel (s : State) {p : Pins} (hcancel : p.cancel = true) : takenByte s p = none := by
  simp [takenByte, rxReady, hcancel]

theorem cycleWord_of_cancel (s : State) {p : Pins} (hrst : p.rst = false) (hcancel : p.cancel = true) :
    cycleWord s p = [0x01#8, selector .cancel (phaseCode s.phase)] := by
  simp [cycleWord, arbitrate, hrst, hcancel]

/-- The phase on the selector byte tells the two cancel rows apart. -/
theorem decode_cancelWord (ph : Phase) :
    decode [0x01#8, selector .cancel (phaseCode ph)] = .ok (if ph = .idle then .cancelIdle else .cancel) := by
  cases ph <;> rfl

/-- A cycle with a cancel and no reset is the response to the cancel, whatever else it presents (60_exceptions.md R157). -/
theorem step_of_cancel {s : State} {p : Pins} {rest : List Input} (hin : s.inputs = .cycle p :: rest)
    (hrst : p.rst = false) (hcancel : p.cancel = true) : step s = .next (cancelEvent { s with inputs := rest }) := by
  have hdec : decode (fetchWord s (.cycle p)) = .ok (if s.phase = .idle then .cancelIdle else .cancel) := by
    rw [fetchWord, cycleWord_of_cancel s hrst hcancel, decode_cancelWord]
  rw [step_of_decode_ok hin hdec]
  split
  · exact exec_cancelIdle _
  · exact exec_cancel _

/-- Settles O39: outside IDLE a cancel is the ending STOPPED, which discards the payload. -/
theorem cancelStopsTheCommand : Obligations.CancelStopsTheCommand := fun s hbusy =>
  ⟨finish .stopped .discard s, (exec_cancel s).trans (congrArg Host.Outcome.next (cancelEvent_of_busy hbusy)),
    rfl, rfl, rfl, fun _ => takenByte_of_cancel s⟩

/-- Settles O40: both rows are the cancel event, and so is the whole cycle, the command in it included. -/
theorem cancelInIdleHasNoEffect : Obligations.CancelInIdleHasNoEffect := by
  intro s hidle
  have hnext : Host.Outcome.next (cancelEvent s) = (.next s : Out) := congrArg Host.Outcome.next (cancelEvent_of_idle hidle)
  refine ⟨(exec_cancelIdle s).trans hnext, (exec_cancel s).trans hnext, fun p rest hin hrst hcancel => ?_⟩
  rw [step_of_cancel hin hrst hcancel, cancelEvent_of_idle (s := { s with inputs := rest }) hidle]

/-! ### A read command (R135) -/

theorem exec_cmdRead_of_idle {s : State} (hidle : s.phase = .idle) : exec .cmdRead s = .next (startRead s) :=
  if_pos hidle

theorem rxReady_of_busy {s : State} {p : Pins} (hbusy : s.phase ≠ .idle) (hcancel : p.cancel = false)
    (hrst : p.rst = false) : rxReady s p = true := by
  simp [rxReady, busy_eq_true hbusy, hcancel, hrst]

/-- What a row can do to a running read: leave it running, end it in one of five ways, or wipe it. The endings of an
acknowledgment take ACK mode, and a command starts in IDLE only. -/
theorem ExecEffect.of_running_read {i : Instr} {s t : State} (he : ExecEffect i s t) (hbusy : s.phase ≠ .idle)
    (hread : s.mode = .read) (hnone : s.outcome = .none) :
    (t.phase ≠ .idle ∧ t.mode = .read ∧ t.outcome = .none) ∨
    (t.phase = .idle ∧ t.mode = .read ∧
      t.outcome ∈ [.frame, .decodeFault, .overflow, .transportFault, .stopped]) ∨
    t = resetState s := by
  cases he with
  | framed => exact .inr (.inl ⟨rfl, hread, by simp⟩)
  | decodeFaulted => exact .inr (.inl ⟨rfl, hread, by simp⟩)
  | overflowed => exact .inr (.inl ⟨rfl, hread, by simp [hread]⟩)
  | transportFailed => exact .inr (.inl ⟨rfl, hread, by simp⟩)
  | stopped => exact .inr (.inl ⟨rfl, hread, by simp⟩)
  | lengthDiffers _ _ hack => simp [hread] at hack
  | compared _ _ _ _ hack => simp [hread] at hack
  | readStarted _ hidle => exact absurd hidle hbusy
  | noData _ _ hidle => exact absurd hidle hbusy
  | writeStarted _ _ hidle => exact absurd hidle hbusy
  | resetDone => exact .inr (.inr rfl)
  | opened => exact .inl ⟨nofun, hread, hnone⟩
  | stays | stored | sent | scanned => exact .inl ⟨hbusy, hread, hnone⟩

/-- Settles O37: the begun read hunts, so it requests bytes; and a step does to a running read what its row does. -/
theorem readCommandStartsHunting : Obligations.ReadCommandStartsHunting := by
  refine ⟨fun s hidle => ⟨startRead s, exec_cmdRead_of_idle hidle, rfl, fun _ => rxReady_of_busy nofun⟩, ?_⟩
  intro s t hbusy hread hnone hstep
  rcases step_effect hstep with ⟨-, rfl⟩ | ⟨inp, rest, i, -, -, he⟩
  · exact .inl ⟨hbusy, hread, hnone⟩
  · rcases he.of_running_read (s := { s with inputs := rest }) hbusy hread hnone with hrun | hended | rfl
    · exact .inl hrun
    · exact .inr (.inl hended)
    · exact .inr (.inr rfl)

end Sys2Proof.Machine

/-! What one clock cycle is (60_exceptions.md R157), what ends a command and shows afterwards (R152, 10_state.md R18), and what
takes `done` away (R154). -/

namespace Sys2Proof.Machine

/-! ### The priority of a cycle's inputs (R157) -/

section
variable {s : State} {p : Pins}

theorem arbitrate_of_rst (hrst : p.rst = true) : arbitrate s p = some .reset := by
  simp [arbitrate, hrst]

theorem arbitrate_of_cancel (hrst : p.rst = false) (hcancel : p.cancel = true) : arbitrate s p = some .cancel := by
  simp [arbitrate, hrst, hcancel]

/-- While a command runs the transport is looked at, and `cmd` is not. -/
theorem arbitrate_of_busy (hrst : p.rst = false) (hcancel : p.cancel = false) (hbusy : s.phase ≠ .idle) :
    arbitrate s p =
      if p.rxFault = true then some .rxFault else if p.rxValid = true then some (.rxByte p.rxData) else none := by
  simp [arbitrate, hrst, hcancel, busy_eq_true hbusy]

/-- In IDLE `cmd` is looked at, and the transport is not. -/
theorem arbitrate_of_idle (hrst : p.rst = false) (hcancel : p.cancel = false) (hidle : s.phase = .idle) :
    arbitrate s p =
      if p.cmd = 1#2 then some .cmdRead else if p.cmd = 2#2 then some (.cmdWrite p.wtext) else none := by
  simp [arbitrate, hrst, hcancel, busy, hidle]

theorem rst_cancel_of_arbitrate_eq_none (h : arbitrate s p = none) : p.rst = false ∧ p.cancel = false := by
  cases hrst : p.rst with
  | true => simp [arbitrate_of_rst hrst] at h
  | false =>
    cases hcancel : p.cancel with
    | true => simp [arbitrate_of_cancel hrst hcancel] at h
    | false => exact ⟨rfl, rfl⟩

/-- A command in a cycle without an event is one that is ignored. -/
theorem busy_of_arbitrate_eq_none (h : arbitrate s p = none) (hcmd : p.cmd = 1#2 ∨ p.cmd = 2#2) : s.phase ≠ .idle := by
  intro hidle
  obtain ⟨hrst, hcancel⟩ := rst_cancel_of_arbitrate_eq_none h
  rw [arbitrate_of_idle hrst hcancel hidle] at h
  rcases hcmd with hcmd | hcmd <;> simp [hcmd] at h

/-- A byte or a failed read in a cycle without an event is one that is offered in IDLE. -/
theorem idle_of_arbitrate_eq_none (h : arbitrate s p = none) (hrx : (p.rxValid || p.rxFault) = true) :
    s.phase = .idle := by
  by_contra hbusy
  obtain ⟨hrst, hcancel⟩ := rst_cancel_of_arbitrate_eq_none h
  rw [arbitrate_of_busy hrst hcancel hbusy] at h
  split_ifs at h with hfault hvalid
  simp [hfault, hvalid] at hrx

end

/-! ### The words of a cycle and the rows they are -/

/-- `w` is the word of a well-formed row of the receive or host formats, and that row answers `o` in the state `t`. -/
def RowAnswers (w : List Byte) (t : State) (o : Out) : Prop :=
  ∃ i, decode w = .ok i ∧ i.wellFormed = true ∧ (isReceiveRow i = true ∨ isHostRow i = true) ∧ exec i t = o

theorem exists_row_of_rxWord (ph : Phase) (m : Mode) (full : Bool) (b : Byte) :
    ∃ i, decode (rxWord ph m full b) = .ok i ∧ i.wellFormed = true ∧ isReceiveRow i = true := by
  rw [decode_rxWord]
  cases ph with
  | idle => exact ⟨_, decodeRx_idle m full b, rfl, rfl⟩
  | hunt =>
    refine ⟨_, decodeRx_hunt m full b, ?_⟩
    split
    · exact ⟨rfl, rfl⟩
    · exact ⟨bne_iff_ne.mpr ‹_›, rfl⟩
  | data =>
    rw [decodeRx_data]
    by_cases hetx : b = rawByte .ETX
    · exact ⟨_, if_pos hetx, by split <;> exact ⟨rfl, rfl⟩⟩
    · rw [if_neg hetx]
      by_cases hcr : b = rawByte .CR
      · exact ⟨_, if_pos hcr, rfl, rfl⟩
      · exact ⟨_, if_neg hcr, by split <;> simp [Instr.wellFormed, isReceiveRow, hetx, hcr]⟩

theorem rowAnswers_rxWord (ph : Phase) (m : Mode) (full : Bool) (b : Byte) (t : State) :
    RowAnswers (rxWord ph m full b) t (rxByte b t) := by
  obtain ⟨i, hdec, hwf, hrow⟩ := exists_row_of_rxWord ph m full b
  exact ⟨i, hdec, hwf, .inl hrow, exec_of_decode_rxWord t hdec⟩

theorem rowAnswers_cancelWord (ph : Phase) (t : State) :
    RowAnswers [0x01#8, selector .cancel (phaseCode ph)] t (respond .cancel t) := by
  refine ⟨_, decode_cancelWord ph, ?_⟩
  split
  · exact ⟨rfl, .inr rfl, exec_cancelIdle t⟩
  · exact ⟨rfl, .inr rfl, exec_cancel t⟩

/-- The phase on the selector byte tells a command from one met while busy; both rows are the command. -/
theorem rowAnswers_cmdReadWord (ph : Phase) (t : State) :
    RowAnswers [0x01#8, selector .hostCmd (phaseCode ph)] t (respond .cmdRead t) := by
  cases ph with
  | idle => exact ⟨.cmdRead, rfl, rfl, .inr rfl, rfl⟩
  | _ => exact ⟨.cmdWhileBusy .read, rfl, rfl, .inr rfl, rfl⟩

theorem rowAnswers_cmdWriteWord (ph : Phase) (x : List Byte) (t : State) :
    RowAnswers (0x02#8 :: selector .hostCmd (phaseCode ph) :: x) t (respond (.cmdWrite x) t) := by
  cases ph with
  | idle => exact ⟨.cmdWrite x, decode_hostCmdWord (by decide) _ x, rfl, .inr rfl, rfl⟩
  | _ => exact ⟨.cmdWhileBusy (.write x), decode_hostCmdWord (by decide) _ x, rfl, .inr rfl, rfl⟩

theorem rowAnswers_cmdNoneWord (ph : Phase) (t : State) :
    RowAnswers [0x00#8, selector .hostCmd (phaseCode ph)] t (.next t) :=
  ⟨.cmdNone, by cases ph <;> rfl, rfl, .inr rfl, exec_cmdNone t⟩

theorem rowAnswers_cmdReservedWord (ph : Phase) (t : State) :
    RowAnswers [0x03#8, selector .hostCmd (phaseCode ph)] t (.next t) :=
  ⟨.cmdReserved, by cases ph <;> rfl, rfl, .inr rfl, exec_cmdReserved t⟩

/-- The row of a cycle without an event changes nothing: an ignored command, a byte offered in IDLE, or no command. -/
theorem rowAnswers_quietWord {s t : State} {p : Pins} (hquiet : arbitrate s p = none) (hphase : t.phase = s.phase) :
    RowAnswers (quietWord s p) t (.next t) := by
  have hignored (hcmd : p.cmd = 1#2 ∨ p.cmd = 2#2) : t.phase ≠ .idle := hphase ▸ busy_of_arbitrate_eq_none hquiet hcmd
  unfold quietWord
  split
  next hcmd => simpa [cmdByte, hcmd] using rowAnswers_cmdReservedWord s.phase t
  next hreserved =>
  split
  next hcmd => simpa [cmdByte, hcmd, respond, hignored (.inr hcmd)] using rowAnswers_cmdWriteWord s.phase p.wtext t
  next hwrite =>
  split
  next hcmd => simpa [cmdByte, hcmd, respond, hignored (.inl hcmd)] using rowAnswers_cmdReadWord s.phase t
  next hread =>
  split
  next hrx =>
    have hidle : t.phase = .idle := hphase.trans (idle_of_arbitrate_eq_none hquiet hrx)
    rw [← rxByte_of_idle hidle p.rxData]
    exact rowAnswers_rxWord _ _ _ _ t
  next =>
    have hcmd : p.cmd = 0#2 := by bv_omega
    simpa [cmdByte, hcmd] using rowAnswers_cmdNoneWord s.phase t

/-- What a cycle's word stands for: the response to the cycle's event, or nothing. -/
theorem rowAnswers_cycleWord {s t : State} (p : Pins) (hphase : t.phase = s.phase) :
    RowAnswers (cycleWord s p) t ((arbitrate s p).elim (.next t) (respond · t)) := by
  unfold cycleWord
  cases harb : arbitrate s p with
  | none => exact rowAnswers_quietWord harb hphase
  | some e =>
    cases e with
    | reset => exact ⟨.reset, rfl, rfl, .inr rfl, rfl⟩
    | cancel => exact rowAnswers_cancelWord s.phase t
    | cmdRead => exact rowAnswers_cmdReadWord s.phase t
    | cmdWrite x => exact rowAnswers_cmdWriteWord s.phase x t
    | rxByte b => exact rowAnswers_rxWord _ _ _ b t
    | rxFault => exact ⟨.rxFault, rfl, rfl, .inl rfl, rfl⟩

/-- Settles O52: the row of the cycle's event, or the row of a cycle without one. -/
theorem everyCycleDecodesToARow : Obligations.EveryCycleDecodesToARow := by
  intro s p
  obtain ⟨i, hdec, hwf, hrow, -⟩ := rowAnswers_cycleWord (t := s) p rfl
  exact ⟨i, hdec, hwf, hrow⟩

/-! ### The step at a cycle -/

section
variable {s : State} {p : Pins} {rest : List Input}

theorem step_of_cycle (hin : s.inputs = .cycle p :: rest) :
    step s = (arbitrate s p).elim (.next { s with inputs := rest }) (respond · { s with inputs := rest }) := by
  obtain ⟨i, hdec, -, -, hexec⟩ := rowAnswers_cycleWord (s := s) (t := { s with inputs := rest }) p rfl
  exact (step_of_decode_ok hin hdec).trans hexec

theorem step_of_arbitrate_eq_some {e : Event} (hin : s.inputs = .cycle p :: rest) (h : arbitrate s p = some e) :
    step s = respond e { s with inputs := rest } := by
  rw [step_of_cycle hin, h, Option.elim_some]

theorem step_of_arbitrate_eq_none (hin : s.inputs = .cycle p :: rest) (h : arbitrate s p = none) :
    step s = .next { s with inputs := rest } := by
  rw [step_of_cycle hin, h, Option.elim_none]

end

theorem rxReady_of_rst (s : State) {p : Pins} (hrst : p.rst = true) : rxReady s p = false := by
  simp [rxReady, hrst]

theorem rxReady_of_cancel (s : State) {p : Pins} (hcancel : p.cancel = true) : rxReady s p = false := by
  simp [rxReady, hcancel]

/-- A reset takes `rx_ready` away in its own cycle. -/
theorem takenByte_of_rst (s : State) {p : Pins} (hrst : p.rst = true) : takenByte s p = none := by
  simp [takenByte, rxReady_of_rst s hrst]

/-- Settles O43: each clause by the event its pins resolve into; the response to that event is the row the clause names. -/
theorem cycleInputsArePrioritised : Obligations.CycleInputsArePrioritised := by
  intro s p rest hin
  refine ⟨fun _ => step_of_arbitrate_eq_some hin, step_of_arbitrate_eq_none hin, fun hrst => ?_,
    fun hrst hcancel => ?_, fun hrst hcancel hbusy => ?_, fun hrst hcancel hidle => ?_⟩
  · exact ⟨step_of_arbitrate_eq_some hin (arbitrate_of_rst hrst), rxReady_of_rst s hrst, takenByte_of_rst s hrst⟩
  · exact ⟨step_of_arbitrate_eq_some hin (arbitrate_of_cancel hrst hcancel), rxReady_of_cancel s hcancel,
      takenByte_of_cancel s hcancel⟩
  · have harb := arbitrate_of_busy hrst hcancel hbusy
    refine ⟨fun hfault => ⟨?_, takenByte_of_rxFault s hfault⟩, fun hfault hvalid => ?_, fun hfault hvalid => ?_⟩
    · exact step_of_arbitrate_eq_some hin (by simpa [hfault] using harb)
    · obtain ⟨i, hdec, -⟩ := exists_row_of_rxWord s.phase s.mode (bufferFull s) p.rxData
      have hstep : step s = rxByte p.rxData { s with inputs := rest } :=
        step_of_arbitrate_eq_some (e := .rxByte p.rxData) hin (by simpa [hfault, hvalid] using harb)
      exact ⟨takenByte_of_busy hbusy hrst hcancel hfault hvalid, i, hdec,
        hstep.trans (exec_of_decode_rxWord _ hdec).symm⟩
    · exact step_of_arbitrate_eq_none hin (by simpa [hfault, hvalid] using harb)
  · have harb := arbitrate_of_idle hrst hcancel hidle
    refine ⟨takenByte_of_idle hidle p, fun hcmd => ?_, fun hcmd => ?_, fun hread hwrite => ?_⟩
    · exact step_of_arbitrate_eq_some hin (by simpa [hcmd] using harb)
    · exact step_of_arbitrate_eq_some (e := .cmdWrite p.wtext) hin (by simpa [hcmd] using harb)
    · exact step_of_arbitrate_eq_none hin (by simpa [hread, hwrite] using harb)

/-! ### The flags (10_state.md R18) -/

theorem busy_iff (s : State) : busy s = true ↔ s.phase ≠ .idle := by
  simp [busy]

theorem done_iff (s : State) : done s = true ↔ s.phase = .idle ∧ s.outcome ≠ .none := by
  simp [done]

theorem okFlag_iff (s : State) : okFlag s = true ↔ s.outcome ∈ [.frame, .ackOk] := by
  simp [okFlag]

theorem errFlag_iff (s : State) :
    errFlag s = true ↔ s.outcome ∈ [.decodeFault, .transportFault, .overflow, .writeFailed, .noData] := by
  simp [errFlag, or_assoc]

/-! ### Ending a command (R152) -/

theorem finish_discard (code : ResultCode) (s : State) :
    finish code .discard s =
      if code = .frame then { s with outcome := code, phase := .idle, len := 0 }
      else { s with outcome := code, phase := .idle, len := 0, trk1 := .absent, trk2 := .absent, trk3 := .absent } := by
  split <;> simp [finish, *]

theorem finish_keep (code : ResultCode) (s : State) :
    finish code .keep s =
      if code = .frame then { s with outcome := code, phase := .idle }
      else { s with outcome := code, phase := .idle, trk1 := .absent, trk2 := .absent, trk3 := .absent } := by
  split <;> simp [finish, *]

theorem done_finish {code : ResultCode} (hcode : code ≠ .none) (k : Keep) (s : State) : done (finish code k s) = true :=
  (done_iff _).mpr ⟨rfl, hcode⟩

/-- Settles O45: `finish` by its two keep values and the flags by the outcome it wrote; the port codes are those of the
tables. -/
theorem finishWritesTheOutcome : Obligations.FinishWritesTheOutcome := by
  refine ⟨fun code s hcode => ⟨fun k => ⟨rfl, done_finish hcode k s, ?_, ?_⟩, finish_discard code s, finish_keep code s⟩,
    fun s => ⟨busy_iff s, done_iff s, okFlag_iff s, errFlag_iff s, fun _ => rfl, rfl, rfl, rfl⟩⟩
  · simp [okFlag_iff]
  · simp [errFlag_iff]

/-! ### `done` (R154) -/

/-- In IDLE only a command and Reset touch `phase` and `outcome`: every other effect on them takes a running command. -/
theorem ExecEffect.of_idle {i : Instr} {s t : State} (he : ExecEffect i s t) (hidle : s.phase = .idle) :
    (t.phase = s.phase ∧ t.outcome = s.outcome) ∨ isCommandRow i = true ∨ i = .reset := by
  cases he with
  | stays | sent | scanned => exact .inl ⟨rfl, rfl⟩
  | opened _ hhunt => simp [hidle] at hhunt
  | stored _ _ hdata | overflowed _ hdata | decodeFaulted _ _ hdata | framed _ _ _ hdata | lengthDiffers _ hdata
  | compared _ _ _ hdata => simp [hidle] at hdata
  | transportFailed _ hbusy | stopped _ hbusy => exact absurd hidle hbusy
  | readStarted hcmd | noData _ hcmd | writeStarted _ hcmd => rcases hcmd with rfl | rfl <;> exact .inr (.inl rfl)
  | resetDone => exact .inr (.inr rfl)

/-- Settles O44: `done` is read off `phase` and `outcome`, and where it is 1 the block is in IDLE. -/
theorem doneIsClearedOnlyByCommandOrReset : Obligations.DoneIsClearedOnlyByCommandOrReset := by
  intro i s t hdone hexec hcleared
  obtain ⟨hidle, -⟩ := (done_iff s).mp hdone
  rcases (exec_effect hexec).of_idle hidle with ⟨hphase, houtcome⟩ | hrow
  · have hkept : done t = done s := by simp only [done, hphase, houtcome]
    simp [hkept, hdone] at hcleared
  · exact hrow

end Sys2Proof.Machine

/-! Reset and hazards (70_reset_and_hazards.md): what Reset leaves (R175), and that a frame longer than the buffer ends the
command by itself (R184). -/

namespace Sys2Proof.Machine

/-! ### Reset (R175, 10_state.md R23) -/

theorem exec_reset (s : State) : exec .reset s = .next (resetState s) := rfl

@[simp] theorem trkOf_resetState (s : State) (n : TrackNo) : trkOf (resetState s) n = .absent := by
  cases n <;> rfl

/-- Settles O41: every output but `tx_valid` is read off `phase` and `outcome`, and `Tx` is never outstanding between steps. -/
theorem resetRestoresResetValues : Obligations.ResetRestoresResetValues := by
  intro s
  have hidle : (resetState s).phase = .idle := resetState_phase s
  refine ⟨resetState s, exec_reset s, hidle, resetState_mode s, resetState_len s, resetState_outcome s,
    resetState_explen s, trkOf_resetState s, ?_, ?_, ?_, ?_, rxReady_of_idle hidle, txValid_eq_false _, resetState_params s,
    resetState_inputs s, resetState_tx s⟩
  · simp [busy]
  · simp [done]
  · simp [okFlag]
  · simp [errFlag]

/-! ### The bound on a reception (R184) -/

/-- Once the command has ended, no later byte is taken. -/
theorem receive_of_idle {s : State} (hidle : s.phase = .idle) (bs : List Byte) : receive bs s = .next s := by
  induction bs with
  | nil => rfl
  | cons b bs ih => rw [receive_cons bs (rxByte_of_idle hidle b), ih]

/-- The bytes `pre` fill the buffer, the storable byte behind them ends the command (R78), the rest meets IDLE. -/
theorem receive_of_overfull {s : State} {pre : List Byte} {b : Byte} (post : List Byte) (hdata : s.phase = .data)
    (hpre : rawByte .ETX ∉ pre) (hfills : s.len + (dropCr pre).length = s.params.payloadMax)
    (hetx : b ≠ rawByte .ETX) (hcr : b ≠ rawByte .CR) :
    receive (pre ++ b :: post) s =
      .next (finish (if s.mode = .read then .overflow else .writeFailed) .discard (appendAll (dropCr pre) s)) := by
  have hended := rxByte_of_full (s := appendAll (dropCr pre) s) hdata hetx hcr hfills.ge
  rw [receive_append _ (receive_of_data hdata hpre hfills.le), receive_cons post hended,
    receive_of_idle (finish_phase _ _ _)]
  rfl

/-- Settles O13: the first `PAYLOAD_MAX - len` bytes fill the buffer, and there is a byte behind them. -/
theorem storingEventsAreBounded : Obligations.StoringEventsAreBounded := by
  intro s bs hdata hlen hstorable hmore
  obtain ⟨room, hroom⟩ := Nat.exists_eq_add_of_le hlen
  have hlt : room < bs.length := by omega
  have hbytes : bs = bs.take room ++ bs[room] :: bs.drop (room + 1) := by simp
  have hetx : rawByte .ETX ∉ bs.take room := fun h => (hstorable _ (List.mem_of_mem_take h)).1 rfl
  have hcr : rawByte .CR ∉ bs.take room := fun h => (hstorable _ (List.mem_of_mem_take h)).2 rfl
  have hfills : s.len + (dropCr (bs.take room)).length = s.params.payloadMax := by
    rw [dropCr_of_not_mem hcr, List.length_take_of_le hlt.le, hroom]
  obtain ⟨hbetx, hbcr⟩ := hstorable bs[room] (List.getElem_mem hlt)
  rw [hbytes]
  exact ⟨_, receive_of_overfull _ hdata hetx hfills hbetx hbcr, rfl, rfl, rfl⟩

end Sys2Proof.Machine

/-! Words of spec/opcode_table.json read back as their rows (30_encoding.md R45, R54, R59): each is what `encode` writes for its
row, so that decoding it is a case of `decodeInvertsEncode`. -/

namespace Sys2Proof.Machine

theorem decode_eq_ok_of_encode_eq {i : Instr} {w : List Byte} (hwf : i.wellFormed = true) (henc : encode i = w) :
    decode w = .ok i :=
  henc ▸ decodeInvertsEncode i hwf

/-- Settles O53: the six rows are well-formed, and each word is the encoding of its row. -/
theorem tableWordsDecode : Obligations.TableWordsDecode :=
  ⟨decode_eq_ok_of_encode_eq (i := .rxStxHunt) rfl rfl,
    decode_eq_ok_of_encode_eq (i := .rxEtxDataAck) rfl rfl,
    decode_eq_ok_of_encode_eq (i := .cr) rfl rfl,
    decode_eq_ok_of_encode_eq (i := .t2Sep) rfl rfl,
    decode_eq_ok_of_encode_eq (i := .opRawWrite) rfl rfl,
    decode_eq_ok_of_encode_eq (i := .cmdWrite [0x41#8]) rfl rfl⟩

end Sys2Proof.Machine
